-- ==== Sys2Proof/Word.lean ====
section
/-! DEFINITION. The word types of the machine (00_scope.md R6: unsigned values of a stated width) and nothing else. -/

namespace Sys2Proof

/-- Four bits: one nibble of an instruction word, a register index `x` or `y`, a sprite height `n`, a key index (R6, R71). -/
abbrev Nibble := BitVec 4

/-- Eight bits: a V register, a timer, a memory cell, the immediate `kk` (R20, R28, R31, R71). -/
abbrev Byte := BitVec 8

/-- Twelve bits: the immediate address `nnn` (R71). -/
abbrev Addr12 := BitVec 12

/-- Sixteen bits: an instruction word, `I`, `PC`, a return address (R22, R23, R27, R70). -/
abbrev Word := BitVec 16

end Sys2Proof
end

