-- ==== Sys2Proof/Config.lean ====
section
/-! DEFINITION. What is fixed for this machine (the parameters of 00_scope.md R5 that are numbers) and the one free value. -/

namespace Sys2Proof.Config

/-- `MEM_SIZE` (R5): bytes of memory; `ADDR_MAX` is one less. -/
abbrev memSize : Nat := 4096

/-- `PROG_BASE` (R5): load address of the program image and reset value of `PC`. -/
abbrev progBase : Nat := 0x200

/-- `PROG_MAX` (R5, R201): the longest program image, `MEM_SIZE - PROG_BASE`. -/
abbrev progMax : Nat := 3584

/-- `STACK_DEPTH` (R5, R26): how many return addresses the stack holds. -/
abbrev stackDepth : Nat := 16

/-- `RAND` (R5, R131, D12, U2): the random byte the host supplies to the `k`-th executed Cxkk. A FREE VALUE: no body, so
nothing can be proved of any byte of it, and a theorem holds for every sequence the host may supply. DESIGN CHOICE (the
form only), log 1; safe for a claim about one run, see the log for claims that compare runs. -/
opaque randByte : Nat → Byte

end Sys2Proof.Config
end

