-- ==== Sys2Proof/Syntax.lean ====
section
/-! DEFINITION. The instructions as syntax: one constructor per row of the opcode table (30_encoding.md R75, R79), carrying
exactly the fields its format names (R73). -/

namespace Sys2Proof

/-- The 34 instructions of R75, in the table's order. The operand types have exactly the widths of the fields (R71), and
every value of every field is accepted (R77). -/
inductive Instr where
  /-- 00E0 CLS (R150). -/
  | cls
  /-- 00EE RET (R100). -/
  | ret
  /-- 1nnn JP nnn (R101). -/
  | jp (nnn : Addr12)
  /-- 2nnn CALL nnn (R102). -/
  | call (nnn : Addr12)
  /-- 3xkk SE Vx, kk (R103). -/
  | seImm (x : Nibble) (kk : Byte)
  /-- 4xkk SNE Vx, kk (R104). -/
  | sneImm (x : Nibble) (kk : Byte)
  /-- 5xy0 SE Vx, Vy (R105). -/
  | seReg (x y : Nibble)
  /-- 6xkk LD Vx, kk (R120). -/
  | ldImm (x : Nibble) (kk : Byte)
  /-- 7xkk ADD Vx, kk (R121). -/
  | addImm (x : Nibble) (kk : Byte)
  /-- 8xy0 LD Vx, Vy (R122). -/
  | ldReg (x y : Nibble)
  /-- 8xy1 OR Vx, Vy (R123). -/
  | orReg (x y : Nibble)
  /-- 8xy2 AND Vx, Vy (R124). -/
  | andReg (x y : Nibble)
  /-- 8xy3 XOR Vx, Vy (R125). -/
  | xorReg (x y : Nibble)
  /-- 8xy4 ADD Vx, Vy (R126). -/
  | addReg (x y : Nibble)
  /-- 8xy5 SUB Vx, Vy (R127). -/
  | subReg (x y : Nibble)
  /-- 8xy6 SHR Vx (R129); `y` is in the word and is ignored by the operation. -/
  | shr (x y : Nibble)
  /-- 8xy7 SUBN Vx, Vy (R128). -/
  | subnReg (x y : Nibble)
  /-- 8xyE SHL Vx (R130); `y` is in the word and is ignored by the operation. -/
  | shl (x y : Nibble)
  /-- 9xy0 SNE Vx, Vy (R106). -/
  | sneReg (x y : Nibble)
  /-- Annn LD I, nnn (R140). -/
  | ldI (nnn : Addr12)
  /-- Bnnn JP V0, nnn (R108). -/
  | jpV0 (nnn : Addr12)
  /-- Cxkk RND Vx, kk (R131). -/
  | rnd (x : Nibble) (kk : Byte)
  /-- Dxyn DRW Vx, Vy, n (R151). -/
  | drw (x y n : Nibble)
  /-- Ex9E SKP Vx (R160). -/
  | skp (x : Nibble)
  /-- ExA1 SKNP Vx (R161). -/
  | sknp (x : Nibble)
  /-- Fx07 LD Vx, DT (R162). -/
  | ldVxDt (x : Nibble)
  /-- Fx0A LD Vx, K (R163). -/
  | ldVxK (x : Nibble)
  /-- Fx15 LD DT, Vx (R164). -/
  | ldDtVx (x : Nibble)
  /-- Fx18 LD ST, Vx (R165). -/
  | ldStVx (x : Nibble)
  /-- Fx1E ADD I, Vx (R141). -/
  | addI (x : Nibble)
  /-- Fx29 LD F, Vx (R142). -/
  | ldF (x : Nibble)
  /-- Fx33 LD B, Vx (R144). -/
  | ldB (x : Nibble)
  /-- Fx55 LD [I], Vx (R145). -/
  | storeRegs (x : Nibble)
  /-- Fx65 LD Vx, [I] (R146). -/
  | loadRegs (x : Nibble)
deriving DecidableEq, Repr

/-- The mnemonic of the instruction's row, spelled as spec/opcode_table.json spells it (R80 gives the assembler's form). -/
def Instr.mnemonic : Instr → String
  | .cls => "CLS"
  | .ret => "RET"
  | .jp _ => "JP_nnn"
  | .call _ => "CALL_nnn"
  | .seImm _ _ => "SE_Vx__kk"
  | .sneImm _ _ => "SNE_Vx__kk"
  | .seReg _ _ => "SE_Vx__Vy"
  | .ldImm _ _ => "LD_Vx__kk"
  | .addImm _ _ => "ADD_Vx__kk"
  | .ldReg _ _ => "LD_Vx__Vy"
  | .orReg _ _ => "OR_Vx__Vy"
  | .andReg _ _ => "AND_Vx__Vy"
  | .xorReg _ _ => "XOR_Vx__Vy"
  | .addReg _ _ => "ADD_Vx__Vy"
  | .subReg _ _ => "SUB_Vx__Vy"
  | .shr _ _ => "SHR_Vx"
  | .subnReg _ _ => "SUBN_Vx__Vy"
  | .shl _ _ => "SHL_Vx"
  | .sneReg _ _ => "SNE_Vx__Vy"
  | .ldI _ => "LD_I__nnn"
  | .jpV0 _ => "JP_V0__nnn"
  | .rnd _ _ => "RND_Vx__kk"
  | .drw _ _ _ => "DRW_Vx__Vy__n"
  | .skp _ => "SKP_Vx"
  | .sknp _ => "SKNP_Vx"
  | .ldVxDt _ => "LD_Vx__DT"
  | .ldVxK _ => "LD_Vx__K"
  | .ldDtVx _ => "LD_DT__Vx"
  | .ldStVx _ => "LD_ST__Vx"
  | .addI _ => "ADD_I__Vx"
  | .ldF _ => "LD_F__Vx"
  | .ldB _ => "LD_B__Vx"
  | .storeRegs _ => "LD__I___Vx"
  | .loadRegs _ => "LD_Vx___I"

end Sys2Proof
end

