-- ==== Sys2Proof/WellFormed.lean ====
section
/-! DEFINITION. What is well-formed. An `Instr` has no ill-formed term: its fields have exactly the widths of R71 and R77
accepts every value of every field, so there is nothing to check there. What CAN be ill-formed is what comes from outside:
a 16-bit word (R76: it must match a row of the opcode table R75) and a program image (R201: at most 3584 bytes). -/

namespace Sys2Proof

/-- One row of the opcode table: a word `w` selects it when `w AND mask` is `pat` (30_encoding.md R75, column match). -/
structure OpcodeRow where
  mnemonic : String
  pat : Word
  mask : Word
deriving DecidableEq, Repr

/-- Does the word select the row (R75, R94)? -/
def OpcodeRow.selects (r : OpcodeRow) (w : Word) : Bool := (w &&& r.mask) == r.pat

/-- Rows 1 to 19 of R75. -/
def opcodeTableLow : List OpcodeRow :=
  [⟨"CLS", 0x00E0#16, 0xFFFF#16⟩, ⟨"RET", 0x00EE#16, 0xFFFF#16⟩,
   ⟨"JP_nnn", 0x1000#16, 0xF000#16⟩, ⟨"CALL_nnn", 0x2000#16, 0xF000#16⟩,
   ⟨"SE_Vx__kk", 0x3000#16, 0xF000#16⟩, ⟨"SNE_Vx__kk", 0x4000#16, 0xF000#16⟩,
   ⟨"SE_Vx__Vy", 0x5000#16, 0xF00F#16⟩, ⟨"LD_Vx__kk", 0x6000#16, 0xF000#16⟩,
   ⟨"ADD_Vx__kk", 0x7000#16, 0xF000#16⟩, ⟨"LD_Vx__Vy", 0x8000#16, 0xF00F#16⟩,
   ⟨"OR_Vx__Vy", 0x8001#16, 0xF00F#16⟩, ⟨"AND_Vx__Vy", 0x8002#16, 0xF00F#16⟩,
   ⟨"XOR_Vx__Vy", 0x8003#16, 0xF00F#16⟩, ⟨"ADD_Vx__Vy", 0x8004#16, 0xF00F#16⟩,
   ⟨"SUB_Vx__Vy", 0x8005#16, 0xF00F#16⟩, ⟨"SHR_Vx", 0x8006#16, 0xF00F#16⟩,
   ⟨"SUBN_Vx__Vy", 0x8007#16, 0xF00F#16⟩, ⟨"SHL_Vx", 0x800E#16, 0xF00F#16⟩,
   ⟨"SNE_Vx__Vy", 0x9000#16, 0xF00F#16⟩]

/-- Rows 20 to 34 of R75. -/
def opcodeTableHigh : List OpcodeRow :=
  [⟨"LD_I__nnn", 0xA000#16, 0xF000#16⟩, ⟨"JP_V0__nnn", 0xB000#16, 0xF000#16⟩,
   ⟨"RND_Vx__kk", 0xC000#16, 0xF000#16⟩, ⟨"DRW_Vx__Vy__n", 0xD000#16, 0xF000#16⟩,
   ⟨"SKP_Vx", 0xE09E#16, 0xF0FF#16⟩, ⟨"SKNP_Vx", 0xE0A1#16, 0xF0FF#16⟩,
   ⟨"LD_Vx__DT", 0xF007#16, 0xF0FF#16⟩, ⟨"LD_Vx__K", 0xF00A#16, 0xF0FF#16⟩,
   ⟨"LD_DT__Vx", 0xF015#16, 0xF0FF#16⟩, ⟨"LD_ST__Vx", 0xF018#16, 0xF0FF#16⟩,
   ⟨"ADD_I__Vx", 0xF01E#16, 0xF0FF#16⟩, ⟨"LD_F__Vx", 0xF029#16, 0xF0FF#16⟩,
   ⟨"LD_B__Vx", 0xF033#16, 0xF0FF#16⟩, ⟨"LD__I___Vx", 0xF055#16, 0xF0FF#16⟩,
   ⟨"LD_Vx___I", 0xF065#16, 0xF0FF#16⟩]

/-- The opcode table R75, all 34 rows (`NUM_INSTRUCTIONS`, C1, D4). The decoder is written separately, by nibbles (R71,
R93); that the two agree is a statement of its own. -/
def opcodeTable : List OpcodeRow := opcodeTableLow ++ opcodeTableHigh

/-- The check on a word: some row of the table is selected (R76: otherwise the word is an unknown opcode). -/
def wordWf (w : Word) : Bool := opcodeTable.any fun r => r.selects w

/-- The check on a program image: it fits between 0x200 and the end of memory (R200, R201). -/
def imageWf (img : List Byte) : Bool := decide (img.length ≤ Config.progMax)

end Sys2Proof
end

