-- ==== Sys2Proof/Decode.lean ====
section
/-! DEFINITION. The decoder (30_encoding.md R71, R73 to R76; 40 R93, R94), total on every word and every byte sequence, and
after it the encoder, written from the same rows of R75. -/

namespace Sys2Proof

/-- Why a byte sequence is not an instruction. -/
inductive DecodeError where
  /-- Fewer than the two bytes every instruction has (R70); never raised by a step, which fetches two bytes. -/
  | truncated
  /-- The word matches no row of R75 (R76). -/
  | unknownOpcode (w : Word)
deriving DecidableEq, Repr

/-- `n1`, bits 15:12, the opcode class (R71). -/
def nib1 (w : Word) : Nibble := w.extractLsb' 12 4

/-- `n2`, bits 11:8 (R71). -/
def nib2 (w : Word) : Nibble := w.extractLsb' 8 4

/-- `n3`, bits 7:4 (R71). -/
def nib3 (w : Word) : Nibble := w.extractLsb' 4 4

/-- `n4`, bits 3:0 (R71). -/
def nib4 (w : Word) : Nibble := w.extractLsb' 0 4

/-- `x = n2`, the index of Vx (R71). -/
def fieldX (w : Word) : Nibble := nib2 w

/-- `y = n3`, the index of Vy (R71). -/
def fieldY (w : Word) : Nibble := nib3 w

/-- `kk`, bits 7:0, the immediate byte; the same bits are the low byte `lo` of classes E and F (R71). -/
def fieldKk (w : Word) : Byte := w.extractLsb' 0 8

/-- `nnn`, bits 11:0, the immediate address (R71). -/
def fieldNnn (w : Word) : Addr12 := w.extractLsb' 0 12

/-- `n = n4`, the sprite height (R71). -/
def fieldN (w : Word) : Nibble := nib4 w

/-- Class 0 (R75 rows 1, 2): all four nibbles are fixed; every other word of the class is unknown (R76). -/
def decodeClass0 (w : Word) : Except DecodeError Instr :=
  if w = 0x00E0#16 then .ok .cls
  else if w = 0x00EE#16 then .ok .ret
  else .error (.unknownOpcode w)

/-- Class 8 (R75 rows 10 to 18): the last nibble selects (R73 F_XY). -/
def decodeClass8 (w : Word) : Except DecodeError Instr :=
  match nib4 w with
  | 0x0#4 => .ok (.ldReg (fieldX w) (fieldY w))
  | 0x1#4 => .ok (.orReg (fieldX w) (fieldY w))
  | 0x2#4 => .ok (.andReg (fieldX w) (fieldY w))
  | 0x3#4 => .ok (.xorReg (fieldX w) (fieldY w))
  | 0x4#4 => .ok (.addReg (fieldX w) (fieldY w))
  | 0x5#4 => .ok (.subReg (fieldX w) (fieldY w))
  | 0x6#4 => .ok (.shr (fieldX w) (fieldY w))
  | 0x7#4 => .ok (.subnReg (fieldX w) (fieldY w))
  | 0xE#4 => .ok (.shl (fieldX w) (fieldY w))
  | _ => .error (.unknownOpcode w)

/-- Class E (R75 rows 24, 25): the low byte selects (R73 F_X). -/
def decodeClassE (w : Word) : Except DecodeError Instr :=
  match fieldKk w with
  | 0x9E#8 => .ok (.skp (fieldX w))
  | 0xA1#8 => .ok (.sknp (fieldX w))
  | _ => .error (.unknownOpcode w)

/-- Class F (R75 rows 26 to 34): the low byte selects (R73 F_X). -/
def decodeClassF (w : Word) : Except DecodeError Instr :=
  match fieldKk w with
  | 0x07#8 => .ok (.ldVxDt (fieldX w))
  | 0x0A#8 => .ok (.ldVxK (fieldX w))
  | 0x15#8 => .ok (.ldDtVx (fieldX w))
  | 0x18#8 => .ok (.ldStVx (fieldX w))
  | 0x1E#8 => .ok (.addI (fieldX w))
  | 0x29#8 => .ok (.ldF (fieldX w))
  | 0x33#8 => .ok (.ldB (fieldX w))
  | 0x55#8 => .ok (.storeRegs (fieldX w))
  | 0x65#8 => .ok (.loadRegs (fieldX w))
  | _ => .error (.unknownOpcode w)

/-- Classes 5 and 9 (R75 rows 7, 19): the last nibble must be 0 (R76, D3, log 17). -/
def decodeLastZero (w : Word) (i : Instr) : Except DecodeError Instr :=
  if nib4 w = 0x0#4 then .ok i else .error (.unknownOpcode w)

/-- Decode and dispatch of one word (R93, R94): the class `n1` first, then whatever fixed nibbles the class has. -/
def decodeWord (w : Word) : Except DecodeError Instr :=
  match nib1 w with
  | 0x0#4 => decodeClass0 w
  | 0x1#4 => .ok (.jp (fieldNnn w))
  | 0x2#4 => .ok (.call (fieldNnn w))
  | 0x3#4 => .ok (.seImm (fieldX w) (fieldKk w))
  | 0x4#4 => .ok (.sneImm (fieldX w) (fieldKk w))
  | 0x5#4 => decodeLastZero w (.seReg (fieldX w) (fieldY w))
  | 0x6#4 => .ok (.ldImm (fieldX w) (fieldKk w))
  | 0x7#4 => .ok (.addImm (fieldX w) (fieldKk w))
  | 0x8#4 => decodeClass8 w
  | 0x9#4 => decodeLastZero w (.sneReg (fieldX w) (fieldY w))
  | 0xA#4 => .ok (.ldI (fieldNnn w))
  | 0xB#4 => .ok (.jpV0 (fieldNnn w))
  | 0xC#4 => .ok (.rnd (fieldX w) (fieldKk w))
  | 0xD#4 => .ok (.drw (fieldX w) (fieldY w) (fieldN w))
  | 0xE#4 => decodeClassE w
  | _ => decodeClassF w

/-- The big-endian word of two bytes, the first at the lower address (R52). -/
def wordOfBytes (hi lo : Byte) : Word := (hi.setWidth 16 <<< 8) ||| lo.setWidth 16

/-- Decode the instruction at the head of a byte sequence and give the bytes after it (R70: always two are taken). -/
def decode : List Byte → Except DecodeError (Instr × List Byte)
  | hi :: lo :: rest =>
    match decodeWord (wordOfBytes hi lo) with
    | .ok i => .ok (i, rest)
    | .error e => .error e
  | _ => .error .truncated

/-- Format F_NNN (R73): class, then `nnn`. -/
def encNnn (c : Nibble) (nnn : Addr12) : Word := (c.setWidth 16 <<< 12) ||| nnn.setWidth 16

/-- Format F_XKK (R73): class, `x`, `kk`. -/
def encXkk (c x : Nibble) (kk : Byte) : Word :=
  (c.setWidth 16 <<< 12) ||| (x.setWidth 16 <<< 8) ||| kk.setWidth 16

/-- Formats F_XY and F_XYN (R73): class, `x`, `y`, last nibble. -/
def encXyn (c x y n : Nibble) : Word :=
  (c.setWidth 16 <<< 12) ||| (x.setWidth 16 <<< 8) ||| (y.setWidth 16 <<< 4) ||| n.setWidth 16

/-- The word of an instruction (R75; every row's pattern). -/
def encode : Instr → Word
  | .cls => 0x00E0#16
  | .ret => 0x00EE#16
  | .jp nnn => encNnn 0x1#4 nnn
  | .call nnn => encNnn 0x2#4 nnn
  | .seImm x kk => encXkk 0x3#4 x kk
  | .sneImm x kk => encXkk 0x4#4 x kk
  | .seReg x y => encXyn 0x5#4 x y 0x0#4
  | .ldImm x kk => encXkk 0x6#4 x kk
  | .addImm x kk => encXkk 0x7#4 x kk
  | .ldReg x y => encXyn 0x8#4 x y 0x0#4
  | .orReg x y => encXyn 0x8#4 x y 0x1#4
  | .andReg x y => encXyn 0x8#4 x y 0x2#4
  | .xorReg x y => encXyn 0x8#4 x y 0x3#4
  | .addReg x y => encXyn 0x8#4 x y 0x4#4
  | .subReg x y => encXyn 0x8#4 x y 0x5#4
  | .shr x y => encXyn 0x8#4 x y 0x6#4
  | .subnReg x y => encXyn 0x8#4 x y 0x7#4
  | .shl x y => encXyn 0x8#4 x y 0xE#4
  | .sneReg x y => encXyn 0x9#4 x y 0x0#4
  | .ldI nnn => encNnn 0xA#4 nnn
  | .jpV0 nnn => encNnn 0xB#4 nnn
  | .rnd x kk => encXkk 0xC#4 x kk
  | .drw x y n => encXyn 0xD#4 x y n
  | .skp x => encXkk 0xE#4 x 0x9E#8
  | .sknp x => encXkk 0xE#4 x 0xA1#8
  | .ldVxDt x => encXkk 0xF#4 x 0x07#8
  | .ldVxK x => encXkk 0xF#4 x 0x0A#8
  | .ldDtVx x => encXkk 0xF#4 x 0x15#8
  | .ldStVx x => encXkk 0xF#4 x 0x18#8
  | .addI x => encXkk 0xF#4 x 0x1E#8
  | .ldF x => encXkk 0xF#4 x 0x29#8
  | .ldB x => encXkk 0xF#4 x 0x33#8
  | .storeRegs x => encXkk 0xF#4 x 0x55#8
  | .loadRegs x => encXkk 0xF#4 x 0x65#8

/-- The high byte of a word, stored at the lower address (R52). -/
def highByte (w : Word) : Byte := w.extractLsb' 8 8

/-- The low byte of a word, stored at the higher address (R52). -/
def lowByte (w : Word) : Byte := w.extractLsb' 0 8

/-- The two bytes of an instruction as memory holds them (R52, R70). -/
def encodeBytes (i : Instr) : List Byte := [highByte (encode i), lowByte (encode i)]

/-- The 16-bit word of a table word of `nbits` bits, the bits above `nbits` zero. -/
def tableWord (nbits w : Nat) : Word := BitVec.ofNat 16 (w % 2 ^ nbits)

/-- The instruction the decoder reads from a word numbered as spec/opcode_table.json numbers it: the word is laid out
big-endian (R52) and given to the byte decoder; `none` where the decoder refuses. -/
def decodeTableWord (nbits w : Nat) : Option Instr :=
  match decode [highByte (tableWord nbits w), lowByte (tableWord nbits w)] with
  | .ok (i, _) => some i
  | .error _ => none

end Sys2Proof
end

