-- ==== Sys2Proof/Machine/State.lean ====
section
/-! DEFINITION. The state of the machine as plain data (10_state.md), the reasons a step stops, and the state after reset. -/

namespace Sys2Proof.Machine

/-- The framebuffer `FB[row][col]`: 32 rows of 64 pixels, `true` = 1 = lit (R30). -/
abbrev Pixels := Vector (Vector Bool 64) 32

/-- Everything the spec gives the machine (10_state.md, the table at its head; R32 to R35: there is nothing else), and one
field of the model's own, `draws`. -/
structure State where
  /-- `V[0..15]`, V0 to VF; VF is also the flag (R20, R21). -/
  v : Vector Byte 16
  /-- The index register `I` (R22). -/
  i : Word
  /-- The program counter `PC` (R23). -/
  pc : Word
  /-- The stack pointer `SP`, a depth 0 to 16 (R26; the type holds exactly those values, log 8). -/
  sp : Fin 17
  /-- `STACK[0..15]`, return addresses (R27). -/
  stack : Vector Word 16
  /-- The delay timer `DT` (R28). -/
  dt : Byte
  /-- The sound timer `ST` (R28). -/
  st : Byte
  /-- `KEY[0..15]`, `true` = pressed, written by the host only (R29). -/
  keys : Vector Bool 16
  /-- The framebuffer (R30). -/
  fb : Pixels
  /-- `MEM[0..4095]` (R31) as a sorted list of the bytes that differ from what an unlisted address reads as (log 4). -/
  mem : List Host.Cell
  /-- THE MODEL'S OWN: how many random bytes have been consumed; it picks the free value of the next Cxkk (log 1). -/
  draws : Nat
deriving DecidableEq, Repr

/-- The errors of 60_exceptions.md R170. Raising one ends the transaction and changes no state (R97, R176): as an outcome
of a step it is SAFE, the machine does no more than the hardware (log 5). -/
inductive Fault where
  /-- `UnknownOpcode(word)`: raised by any step whose fetched word matches no row of R75 (R95, R171). Safe. -/
  | unknownOpcode (w : Word)
  /-- `StackOverflow`: raised by 2nnn with `SP` = 16 (R102, R172). Safe. -/
  | stackOverflow
  /-- `StackUnderflow`: raised by 00EE with `SP` = 0 (R100, R173). Safe. -/
  | stackUnderflow
  /-- `MemoryOutOfBounds(addr)`: raised by the fetch, Dxyn, Fx33, Fx55 and Fx65 when a byte of the access lies above 4095;
  `addr` is the lowest such address (R56, R174). Safe. -/
  | memoryOutOfBounds (addr : Word)
  /-- `ProgramTooLarge`: raised by the `Reset` transaction alone, never by a step (R201). Safe. -/
  | programTooLarge
deriving DecidableEq, Repr

/-- Why the model has no meaning for an instruction. Every instruction of the table has one, so no step answers this. -/
inductive Refusal where
  /-- An instruction with no meaning yet, by its mnemonic: raised by an arm of `exec` alone; no arm raises it. Safe. -/
  | notModelled (mnemonic : String)
deriving DecidableEq, Repr

/-- The state right after a successful `Reset` with the empty image (R36, R37, R200): every register, timer, stack entry,
key and pixel zero, `PC` at 0x200, memory with nothing listed, that is the font and zeros. -/
def State.reset : State where
  v := Vector.replicate 16 0x00#8
  i := 0x0000#16
  pc := 0x0200#16
  sp := 0
  stack := Vector.replicate 16 0x0000#16
  dt := 0x00#8
  st := 0x00#8
  keys := Vector.replicate 16 false
  fb := Vector.replicate 32 (Vector.replicate 64 false)
  mem := []
  draws := 0

end Sys2Proof.Machine
end

