-- ==== Sys2Proof/Machine/Memory.lean ====
section
/-! DEFINITION. The memory unit on plain data (20_memory.md): what an unlisted address reads as, the read and write of one
byte and of a run of bytes, and the canonical form. Addresses are Nats and never wrap (R9, R55). -/

namespace Sys2Proof.Machine

/-- Glyphs 0 to 7 of the font, five bytes each (R38). -/
def fontLow : List Byte :=
  [0xF0#8, 0x90#8, 0x90#8, 0x90#8, 0xF0#8, 0x20#8, 0x60#8, 0x20#8, 0x20#8, 0x70#8,
   0xF0#8, 0x10#8, 0xF0#8, 0x80#8, 0xF0#8, 0xF0#8, 0x10#8, 0xF0#8, 0x10#8, 0xF0#8,
   0x90#8, 0x90#8, 0xF0#8, 0x10#8, 0x10#8, 0xF0#8, 0x80#8, 0xF0#8, 0x10#8, 0xF0#8,
   0xF0#8, 0x80#8, 0xF0#8, 0x90#8, 0xF0#8, 0xF0#8, 0x10#8, 0x20#8, 0x40#8, 0x40#8]

/-- Glyphs 8 to F of the font, five bytes each (R38). -/
def fontHigh : List Byte :=
  [0xF0#8, 0x90#8, 0xF0#8, 0x90#8, 0xF0#8, 0xF0#8, 0x90#8, 0xF0#8, 0x10#8, 0xF0#8,
   0xF0#8, 0x90#8, 0xF0#8, 0x90#8, 0x90#8, 0xE0#8, 0x90#8, 0xE0#8, 0x90#8, 0xE0#8,
   0xF0#8, 0x80#8, 0x80#8, 0x80#8, 0xF0#8, 0xE0#8, 0x90#8, 0x90#8, 0x90#8, 0xE0#8,
   0xF0#8, 0x80#8, 0xF0#8, 0x80#8, 0xF0#8, 0xF0#8, 0x80#8, 0xF0#8, 0x80#8, 0x80#8]

/-- `FONT` (R5, R38): the 80 bytes at 0x000 to 0x04F after `Reset`. PRESUMED by the spec itself (D11, G2), log 2; unsafe for
claims about the shapes of drawn digits, and no other rule depends on it. -/
def font : List Byte := fontLow ++ fontHigh

/-- What a byte of memory nothing has written reads as: the font at 0x000 to 0x04F, 0x00 everywhere else (R37, `MEM_INIT`;
D10, log 3: unsafe for claims that read memory a program never wrote). -/
def memDefault (a : Nat) : Byte := font.getD a 0x00#8

/-- The byte at an address (R50, R53). -/
def memRead : List Host.Cell → Nat → Byte
  | [], a => memDefault a
  | (c, d) :: rest, a => if a = c then d else memRead rest a

/-- Store one byte (R53): an ordinary store at every address, the font region included (R57, D9, log 11). The list stays
sorted, and storing what an unlisted address reads as takes the entry out. -/
def memWrite : List Host.Cell → Nat → Byte → List Host.Cell
  | [], a, b => if b = memDefault a then [] else [(a, b)]
  | (c, d) :: rest, a, b =>
    if a < c then (if b = memDefault a then (c, d) :: rest else (a, b) :: (c, d) :: rest)
    else if a = c then (if b = memDefault a then rest else (a, b) :: rest)
    else (c, d) :: memWrite rest a b

/-- The `n` bytes from `a` upward (R53: ascending single-byte reads). -/
def memReadList (m : List Host.Cell) (a : Nat) : Nat → List Byte
  | 0 => []
  | n + 1 => memRead m a :: memReadList m (a + 1) n

/-- Store bytes from `a` upward (R53: ascending single-byte writes). -/
def memWriteList : List Host.Cell → Nat → List Byte → List Host.Cell
  | m, _, [] => m
  | m, a, b :: bs => memWriteList (memWrite m a b) (a + 1) bs

/-- The canonical form from a lower bound on: addresses strictly rising and inside memory, no entry equal to what the
address reads as without it. -/
def memWfFrom : Nat → List Host.Cell → Bool
  | _, [] => true
  | lo, (c, d) :: rest =>
    decide (lo ≤ c) && decide (c < Config.memSize) && decide (d ≠ memDefault c) && memWfFrom (c + 1) rest

/-- The canonical form of a memory: equal memories are equal lists. -/
def memWf (m : List Host.Cell) : Bool := memWfFrom 0 m

/-- The bounds check of a whole access range `base` to `base + n - 1` (R55, R56): nothing where it fits or is empty, else
the lowest address of the range above 4095 (D6, log 13). -/
def rangeError (base n : Nat) : Option Word :=
  if n = 0 ∨ base + n ≤ Config.memSize then none
  else some (BitVec.ofNat 16 (if base < Config.memSize then Config.memSize else base))

end Sys2Proof.Machine
end

