-- ==== Sys2Proof/Machine/Ops.lean ====
section
/-! DEFINITION. The named operations over registers, memory, stack and `PC` that every instruction is written with, the
fetch, and the one operation that takes an error. -/

namespace Sys2Proof.Machine

/-- `V[x]` (R8, R20): all sixteen are readable, none is hard-wired. -/
def getV (s : State) (x : Nibble) : Byte := s.v[x.toNat]'x.isLt

/-- `V[x] <- b` (R8, R20): all sixteen are writable, none is hard-wired. -/
def setV (s : State) (x : Nibble) (b : Byte) : State := { s with v := s.v.set x.toNat b x.isLt }

/-- The index of VF, the implicit flag register (R21). -/
def vf : Nibble := 0xF#4

/-- The index of V0, the offset register of Bnnn (R20, R108). -/
def v0 : Nibble := 0x0#4

/-- Taking an error, for every instruction and for the fetch (R10, R97, R176): the step ends and hands the error to the
host; nothing is saved, no state changes, there is no handler and no return from one (R177). The outcome carries no state
because the state stays what it was before the step. -/
def raise (e : Fault) : Host.Outcome State Fault Refusal := .fault e

/-- End a step with what an operation gave: the new state, or the error taken (R96). -/
def finish : Except Fault State → Host.Outcome State Fault Refusal
  | .ok s => .next s
  | .error e => raise e

/-- Read `n` bytes at `base`: the whole range is checked before any byte is read (R56, R143). -/
def readRange (s : State) (base n : Nat) : Except Fault (List Byte) :=
  match rangeError base n with
  | some a => .error (.memoryOutOfBounds a)
  | none => .ok (memReadList s.mem base n)

/-- Write the bytes at `base`: the whole range is checked before any byte is written (R56, R143). -/
def writeRange (s : State) (base : Nat) (bs : List Byte) : Except Fault State :=
  match rangeError base bs.length with
  | some a => .error (.memoryOutOfBounds a)
  | none => .ok { s with mem := memWriteList s.mem base bs }

/-- Phase 1 of a step (R91): the big-endian word at `PC`, or the bounds error. -/
def fetchWord (s : State) : Except Fault Word :=
  match rangeError s.pc.toNat 2 with
  | some a => .error (.memoryOutOfBounds a)
  | none => .ok (wordOfBytes (memRead s.mem s.pc.toNat) (memRead s.mem (s.pc.toNat + 1)))

/-- Phase 2 of a step (R92): `PC <- PC + 2`. Every meaning starts from the state this gives (R12). -/
def advance (s : State) : State := { s with pc := s.pc + 2#16 }

/-- A skip (R103): `PC` moves on by 2 more when the condition holds. -/
def skipIf (c : Bool) (s : State) : State := if c then advance s else s

/-- `PC <- target` (R8, R107): no target is checked by the instruction that sets it. -/
def jumpTo (target : Word) (s : State) : State := { s with pc := target }

/-- Push `PC`, which is the address after the CALL (R27, R102): `STACK[SP] <- PC`, then `SP <- SP + 1`. -/
def pushReturn (s : State) : Except Fault State :=
  if h : s.sp.val < Config.stackDepth then
    .ok { s with stack := s.stack.set s.sp.val s.pc h, sp := ⟨s.sp.val + 1, Nat.succ_lt_succ h⟩ }
  else .error .stackOverflow

/-- Pop into `PC` (R27, R100): `PC <- STACK[SP - 1]`, `SP <- SP - 1`; the entry is not cleared. -/
def popReturn (s : State) : Except Fault State :=
  if h : s.sp.val = 0 then .error .stackUnderflow
  else .ok { s with pc := s.stack[s.sp.val - 1]'(by omega), sp := ⟨s.sp.val - 1, by omega⟩ }

end Sys2Proof.Machine
end

