-- ==== Sys2Proof/Machine/Flags.lean ====
section
/-! DEFINITION. Every flag computation of the machine. VF is the only flag (10_state.md R21), its value as a flag is 0x00
or 0x01, and it is written after the result (R25, R133). -/

namespace Sys2Proof.Machine

/-- A flag as a byte: 0x01 or 0x00 (R21, R133). -/
def flagByte (c : Bool) : Byte := if c then 0x01#8 else 0x00#8

/-- The carry out of the 9-bit sum (R126): the true sum exceeds 255. -/
def carryOut (a b : Byte) : Bool := decide (a.toNat + b.toNat > 255)

/-- The flag of both subtractions (R127, R128): the minuend is strictly greater, unsigned; equal operands give 0 (C3, log 21). -/
def strictlyGreater (minuend subtrahend : Byte) : Bool := decide (minuend.toNat > subtrahend.toNat)

/-- The bit a right shift moves out (R129). -/
def bitOutRight (a : Byte) : Bool := a.getLsbD 0

/-- The bit a left shift moves out (R130). -/
def bitOutLeft (a : Byte) : Bool := a.getLsbD 7

/-- Write VF as a flag (R21). -/
def setFlag (s : State) (c : Bool) : State := setV s vf (flagByte c)

/-- Result first, flag last: with `x` = 15 the flag is what VF holds (R25, R133; D8, log 12). -/
def setResultFlag (s : State) (x : Nibble) (result : Byte) (c : Bool) : State := setFlag (setV s x result) c

end Sys2Proof.Machine
end

