-- ==== Sys2Proof/Machine/Operands.lean ====
section
/-! DEFINITION. The operand forms (30_encoding.md R72, 43 R143): everything is unsigned and zero-extended, and the one
addressing mode is `I` plus a constant. -/

namespace Sys2Proof.Machine

/-- `zext_16(nnn)` (R72). -/
def zext12 (nnn : Addr12) : Word := nnn.setWidth 16

/-- `zext_16(V[x])` (R72). -/
def zext8 (b : Byte) : Word := b.setWidth 16

/-- The base address of a data access: `I`, as an unbounded integer (R55, R143). -/
def indexBase (s : State) : Nat := s.i.toNat

/-- The number of registers V0 to Vx (R145, R146: inclusive range). -/
def regCount (x : Nibble) : Nat := x.toNat + 1

/-- The bytes Fx55 stores: `V[0]` to `V[x]` in order (R145). -/
def regBytes (s : State) (x : Nibble) : List Byte := s.v.toList.take (regCount x)

/-- The register file with its first registers replaced by the bytes, in order (R146). -/
def loadBytes (v : Vector Byte 16) (bs : List Byte) : Vector Byte 16 :=
  Vector.ofFn fun k => bs.getD k.val v[k.val]

/-- The three digits of Fx33, hundreds first, each a plain number 0 to 9 (R144). -/
def bcdDigits (b : Byte) : List Byte := [b / 100#8, b / 10#8 % 10#8, b % 10#8]

/-- The key index of Ex9E and ExA1: `Vx[3:0]`, `KEY_INDEX_MASK` (R160; D14, log 14). -/
def keyIndex (b : Byte) : Nibble := b.extractLsb' 0 4

/-- `KEY[k]` (R8, R29). -/
def keyDown (s : State) (k : Nibble) : Bool := s.keys[k.toNat]'k.isLt

/-- The smallest pressed key, if any: `KEY_PRIORITY` (R163; D13, log 15). -/
def lowestKey (s : State) : Option Nat := s.keys.toList.findIdx? id

/-- The address of the glyph: `Vx * 5` on all 8 bits of `Vx` (R142, D15). -/
def fontAddress (b : Byte) : Word := zext8 b * 5#16

end Sys2Proof.Machine
end

