-- ==== Sys2Proof/Machine/Alu.lean ====
section
/-! DEFINITION. Register loads, the 8-bit ALU with flag propagation, random (42_alu.md). Arithmetic wraps modulo 256 (R132);
both result and flag come from the old register values (R133). -/

namespace Sys2Proof.Machine

/-- 6xkk LD Vx, kk (R120). -/
def execLdImm (x : Nibble) (kk : Byte) (s : State) : Host.Outcome State Fault Refusal := .next (setV s x kk)

/-- 7xkk ADD Vx, kk (R121): no flag. -/
def execAddImm (x : Nibble) (kk : Byte) (s : State) : Host.Outcome State Fault Refusal :=
  .next (setV s x (getV s x + kk))

/-- 8xy0 LD Vx, Vy (R122). -/
def execLdReg (x y : Nibble) (s : State) : Host.Outcome State Fault Refusal := .next (setV s x (getV s y))

/-- 8xy1 OR Vx, Vy (R123): no flag. -/
def execOrReg (x y : Nibble) (s : State) : Host.Outcome State Fault Refusal :=
  .next (setV s x (getV s x ||| getV s y))

/-- 8xy2 AND Vx, Vy (R124): no flag. -/
def execAndReg (x y : Nibble) (s : State) : Host.Outcome State Fault Refusal :=
  .next (setV s x (getV s x &&& getV s y))

/-- 8xy3 XOR Vx, Vy (R125): no flag. -/
def execXorReg (x y : Nibble) (s : State) : Host.Outcome State Fault Refusal :=
  .next (setV s x (getV s x ^^^ getV s y))

/-- 8xy4 ADD Vx, Vy (R126): VF is the carry. -/
def execAddReg (x y : Nibble) (s : State) : Host.Outcome State Fault Refusal :=
  .next (setResultFlag s x (getV s x + getV s y) (carryOut (getV s x) (getV s y)))

/-- 8xy5 SUB Vx, Vy (R127): VF is `Vx > Vy`. -/
def execSubReg (x y : Nibble) (s : State) : Host.Outcome State Fault Refusal :=
  .next (setResultFlag s x (getV s x - getV s y) (strictlyGreater (getV s x) (getV s y)))

/-- 8xy6 SHR Vx (R129): `y` is ignored. -/
def execShr (x _y : Nibble) (s : State) : Host.Outcome State Fault Refusal :=
  .next (setResultFlag s x (getV s x >>> 1) (bitOutRight (getV s x)))

/-- 8xy7 SUBN Vx, Vy (R128): VF is `Vy > Vx`. -/
def execSubnReg (x y : Nibble) (s : State) : Host.Outcome State Fault Refusal :=
  .next (setResultFlag s x (getV s y - getV s x) (strictlyGreater (getV s y) (getV s x)))

/-- 8xyE SHL Vx (R130): `y` is ignored. -/
def execShl (x _y : Nibble) (s : State) : Host.Outcome State Fault Refusal :=
  .next (setResultFlag s x (getV s x <<< 1) (bitOutLeft (getV s x)))

/-- Cxkk with the random byte `r` of the step given (R131): `V[x] <- r AND kk`, no flag. -/
def rndWith (r : Byte) (x : Nibble) (kk : Byte) (s : State) : State := setV s x (r &&& kk)

/-- Cxkk RND Vx, kk (R131): the byte is the free value, consumed once (log 1). -/
def execRnd (x : Nibble) (kk : Byte) (s : State) : Host.Outcome State Fault Refusal :=
  .next (rndWith (Config.randByte s.draws) x kk { s with draws := s.draws + 1 })

end Sys2Proof.Machine
end

