-- ==== Sys2Proof/Machine/Control.lean ====
section
/-! DEFINITION. Control transfer (41_control_transfer.md). Every meaning starts with `PC` = `PC_next` (R12, R92). -/

namespace Sys2Proof.Machine

/-- 00EE RET (R100). -/
def execRet (s : State) : Host.Outcome State Fault Refusal := finish (popReturn s)

/-- 1nnn JP nnn (R101). -/
def execJp (nnn : Addr12) (s : State) : Host.Outcome State Fault Refusal := .next (jumpTo (zext12 nnn) s)

/-- 2nnn CALL nnn (R102): one push (C2), then the jump. -/
def execCall (nnn : Addr12) (s : State) : Host.Outcome State Fault Refusal :=
  match pushReturn s with
  | .ok t => .next (jumpTo (zext12 nnn) t)
  | .error e => raise e

/-- 3xkk SE Vx, kk (R103). -/
def execSeImm (x : Nibble) (kk : Byte) (s : State) : Host.Outcome State Fault Refusal :=
  .next (skipIf (getV s x == kk) s)

/-- 4xkk SNE Vx, kk (R104). -/
def execSneImm (x : Nibble) (kk : Byte) (s : State) : Host.Outcome State Fault Refusal :=
  .next (skipIf (getV s x != kk) s)

/-- 5xy0 SE Vx, Vy (R105). -/
def execSeReg (x y : Nibble) (s : State) : Host.Outcome State Fault Refusal :=
  .next (skipIf (getV s x == getV s y) s)

/-- 9xy0 SNE Vx, Vy (R106). -/
def execSneReg (x y : Nibble) (s : State) : Host.Outcome State Fault Refusal :=
  .next (skipIf (getV s x != getV s y) s)

/-- Bnnn JP V0, nnn (R108): the 16-bit sum, not reduced modulo 4096. -/
def execJpV0 (nnn : Addr12) (s : State) : Host.Outcome State Fault Refusal :=
  .next (jumpTo (zext12 nnn + zext8 (getV s v0)) s)

end Sys2Proof.Machine
end

