-- ==== Sys2Proof/Machine/Display.lean ====
section
/-! DEFINITION. The framebuffer and its collision detector (44_display.md), with the loops of R151 as they stand there. -/

namespace Sys2Proof.Machine

/-- `FB[row][col]` (R30). -/
def getPixel (fb : Pixels) (row : Fin 32) (col : Fin 64) : Bool := fb[row.val][col.val]

/-- `FB[row][col] <- b` (R30). -/
def setPixel (fb : Pixels) (row : Fin 32) (col : Fin 64) (b : Bool) : Pixels :=
  fb.set row.val (fb[row.val].set col.val b)

/-- The framebuffer with every pixel 0 (R150). -/
def clearPixels : Pixels := Vector.replicate 32 (Vector.replicate 64 false)

/-- Bit `7 - c` of a sprite byte: column offset `c`, bit 7 leftmost (R151; D21, log 10). -/
def spriteBit (b : Byte) (c : Nat) : Bool := b.getLsbD (7 - c)

/-- Row `(y0 + r) mod 32` (R151). -/
def wrapRow (y0 r : Nat) : Fin 32 := Fin.ofNat 32 (y0 + r)

/-- Column `(x0 + c) mod 64` (R151). -/
def wrapCol (x0 c : Nat) : Fin 64 := Fin.ofNat 64 (x0 + c)

/-- The body of the loops of R151 for one sprite bit: a set bit XORs its pixel and is a hit if the pixel was lit. -/
def drawBit (row : Fin 32) (col : Fin 64) (bit : Bool) (acc : Pixels × Bool) : Pixels × Bool :=
  if bit then (setPixel acc.1 row col (!getPixel acc.1 row col), acc.2 || getPixel acc.1 row col) else acc

/-- The inner loop of R151: the eight bits of one sprite byte. -/
def drawByte (row : Fin 32) (x0 : Nat) (b : Byte) (acc : Pixels × Bool) : Pixels × Bool :=
  (List.range 8).foldl (fun acc c => drawBit row (wrapCol x0 c) (spriteBit b c) acc) acc

/-- The outer loop of R151 from sprite row `r` on. -/
def drawRows (x0 y0 : Nat) : Nat → List Byte → Pixels × Bool → Pixels × Bool
  | _, [], acc => acc
  | r, b :: bs, acc => drawRows x0 y0 (r + 1) bs (drawByte (wrapRow y0 r) x0 b acc)

/-- The draw of R151 on a framebuffer: the new framebuffer and `hit`. -/
def drawSprite (fb : Pixels) (x0 y0 : Byte) (rows : List Byte) : Pixels × Bool :=
  drawRows x0.toNat y0.toNat 0 rows (fb, false)

/-- 00E0 CLS (R150): VF unchanged. -/
def execCls (s : State) : Host.Outcome State Fault Refusal := .next { s with fb := clearPixels }

/-- Dxyn DRW Vx, Vy, n (R151): coordinates are read before VF is touched, VF is written last, also when nothing is drawn;
with `n` = 0 no byte is read and no check is made (D22). -/
def execDrw (x y n : Nibble) (s : State) : Host.Outcome State Fault Refusal :=
  match readRange s (indexBase s) n.toNat with
  | .ok rows =>
    .next (setFlag { s with fb := (drawSprite s.fb (getV s x) (getV s y) rows).1 }
      (drawSprite s.fb (getV s x) (getV s y) rows).2)
  | .error e => raise e

end Sys2Proof.Machine
end

