-- ==== Sys2Proof/Machine/IndexMem.lean ====
section
/-! DEFINITION. Index register and memory transfer (43_index_and_memory.md). None writes VF as a flag, and no access
changes `I` (R143). -/

namespace Sys2Proof.Machine

/-- 16-bit write of `I` (R22). -/
def setI (s : State) (w : Word) : State := { s with i := w }

/-- Annn LD I, nnn (R140). -/
def execLdI (nnn : Addr12) (s : State) : Host.Outcome State Fault Refusal := .next (setI s (zext12 nnn))

/-- Fx1E ADD I, Vx (R141): modulo 65536, VF unchanged. -/
def execAddI (x : Nibble) (s : State) : Host.Outcome State Fault Refusal := .next (setI s (s.i + zext8 (getV s x)))

/-- Fx29 LD F, Vx (R142). -/
def execLdF (x : Nibble) (s : State) : Host.Outcome State Fault Refusal := .next (setI s (fontAddress (getV s x)))

/-- Fx33 LD B, Vx (R144). -/
def execLdB (x : Nibble) (s : State) : Host.Outcome State Fault Refusal :=
  finish (writeRange s (indexBase s) (bcdDigits (getV s x)))

/-- Fx55 LD [I], Vx (R145). -/
def execStoreRegs (x : Nibble) (s : State) : Host.Outcome State Fault Refusal :=
  finish (writeRange s (indexBase s) (regBytes s x))

/-- Fx65 LD Vx, [I] (R146). -/
def execLoadRegs (x : Nibble) (s : State) : Host.Outcome State Fault Refusal :=
  match readRange s (indexBase s) (regCount x) with
  | .ok bs => .next { s with v := loadBytes s.v bs }
  | .error e => raise e

end Sys2Proof.Machine
end

