-- ==== Sys2Proof/Machine/KeypadTimers.lean ====
section
/-! DEFINITION. Keypad and timer instructions (45_keypad_and_timers.md). None decrements a timer or changes a key (R166, R29). -/

namespace Sys2Proof.Machine

/-- Ex9E SKP Vx (R160). -/
def execSkp (x : Nibble) (s : State) : Host.Outcome State Fault Refusal :=
  .next (skipIf (keyDown s (keyIndex (getV s x))) s)

/-- ExA1 SKNP Vx (R161). -/
def execSknp (x : Nibble) (s : State) : Host.Outcome State Fault Refusal :=
  .next (skipIf (!keyDown s (keyIndex (getV s x))) s)

/-- Fx07 LD Vx, DT (R162). -/
def execLdVxDt (x : Nibble) (s : State) : Host.Outcome State Fault Refusal := .next (setV s x s.dt)

/-- Fx0A LD Vx, K (R163): the lowest pressed key into Vx, or, with no key pressed, `PC` back by 2 so that the next step
fetches the same instruction again; either way the step ends normally. -/
def execLdVxK (x : Nibble) (s : State) : Host.Outcome State Fault Refusal :=
  match lowestKey s with
  | some k => .next (setV s x (BitVec.ofNat 8 k))
  | none => .next (jumpTo (s.pc - 2#16) s)

/-- Fx15 LD DT, Vx (R164). -/
def execLdDtVx (x : Nibble) (s : State) : Host.Outcome State Fault Refusal := .next { s with dt := getV s x }

/-- Fx18 LD ST, Vx (R165). -/
def execLdStVx (x : Nibble) (s : State) : Host.Outcome State Fault Refusal := .next { s with st := getV s x }

end Sys2Proof.Machine
end

