-- ==== Sys2Proof/Machine/Step.lean ====
section
/-! DEFINITION. The `Step` transaction (40_step_decode_dispatch.md R90 to R99) and the placing of one instruction word where
the next step fetches it. -/

namespace Sys2Proof.Machine

/-- One `Step`: fetch (R91), decode and dispatch (R93 to R95), advance (R92), execute (R96). An error is an outcome without a
state because the state stays as it was (R97). -/
def step (s : State) : Host.Outcome State Fault Refusal :=
  match fetchWord s with
  | .error e => raise e
  | .ok w =>
    match decodeWord w with
    | .error _ => raise (.unknownOpcode w)
    | .ok i => exec i (advance s)

/-- `s` with the instruction word placed big-endian at `PC` and `PC + 1` (R52, R91), nothing else changed. With `PC` above
4094 there is no place to put it and no step fetches anything; the state is then left alone. It stands for the image that
`Reset` loads from outside (R200, log 7). -/
def State.withFetchWord (s : State) (nbits w : Nat) : State :=
  match rangeError s.pc.toNat 2 with
  | some _ => s
  | none =>
    { s with mem := memWriteList s.mem s.pc.toNat [highByte (tableWord nbits w), lowByte (tableWord nbits w)] }

end Sys2Proof.Machine
end

