-- ==== Sys2Proof/Machine/Transactions.lean ====
section
/-! DEFINITION. The six transactions of the block (00_scope.md R7): the core's `Step` and the host's five (60_exceptions.md
R183 to R187, 70_reset_and_hazards.md R200 to R202). The host's act between steps only, in any number and order (R186, log 6). -/

namespace Sys2Proof.Machine

/-- Memory after a successful `Reset` (R37): the image from 0x200 on, over the font and zeros. -/
def loadImage (img : List Byte) : List Host.Cell := memWriteList [] Config.progBase img

/-- The machine a successful `Reset` creates (R36, R37, R200). `draws`, the model's own field, is given by the caller: a
second `Reset` goes on in the host's random sequence and does not replay it (N4, log 1). -/
def created (draws : Nat) (img : List Byte) : State := { State.reset with mem := loadImage img, draws := draws }

/-- One timer's tick (R183): minus 1 if not zero; a timer at 0 stays at 0. -/
def tick (b : Byte) : Byte := if b = 0x00#8 then b else b - 0x01#8

/-- `TickTimers` (R183). -/
def tickTimers (s : State) : State := { s with dt := tick s.dt, st := tick s.st }

/-- `SetKey(index, pressed)` (R184); the index has four bits, so an index above 15 cannot be expressed (U10). -/
def setKey (s : State) (index : Nibble) (pressed : Bool) : State :=
  { s with keys := s.keys.set index.toNat pressed index.isLt }

/-- `ReadFramebuffer` (R185): the pixels as they are. -/
def readFramebuffer (s : State) : Pixels := s.fb

/-- `ReadSoundTimer` (R187): the value of `ST`. -/
def readSoundTimer (s : State) : Byte := s.st

/-- The transactions of R7. `Reset(img, len)` is given the image as the list of its `len` bytes (log 22). -/
inductive Transaction where
  | reset (img : List Byte)
  | step
  | tickTimers
  | setKey (index : Nibble) (pressed : Bool)
  | readFramebuffer
  | readSoundTimer
deriving DecidableEq, Repr

/-- What a transaction hands back to the host. -/
inductive Response where
  /-- `Ok` (R90, R200), or nothing to say (R183, R184). -/
  | ok
  /-- An error of R170. -/
  | error (e : Fault)
  /-- The grid of `ReadFramebuffer` (R185). -/
  | pixels (fb : Pixels)
  /-- The value of `ReadSoundTimer` (R187). -/
  | sound (b : Byte)
deriving DecidableEq, Repr

/-- The block: no machine before the first successful `Reset` (R202), else one machine. -/
abbrev Block := Option State

/-- The consumed random bytes so far; 0 where no machine exists yet. -/
def drawsOf : Block → Nat
  | none => 0
  | some s => s.draws

/-- The `Reset` transaction (R200, R201): an image that does not fit is `ProgramTooLarge` and leaves the block as it was. -/
def resetBlock (b : Block) (img : List Byte) : Block × Response :=
  if imageWf img then (some (created (drawsOf b) img), .ok) else (b, .error .programTooLarge)

/-- The `Step` transaction as the host sees it (R90, R97, R177): the new state and `Ok`, or the error and the SAME state. -/
def stepResponse (s : State) : Option (Block × Response) :=
  match step s with
  | .next t => some (some t, .ok)
  | .fault e => some (some s, .error e)
  | .refused _ => none

/-- One transaction of the block. `none` where there is no transition: anything but `Reset` before a machine exists (R202, U9). -/
def perform : Block → Transaction → Option (Block × Response)
  | b, .reset img => some (resetBlock b img)
  | none, .step => none
  | none, .tickTimers => none
  | none, .setKey _ _ => none
  | none, .readFramebuffer => none
  | none, .readSoundTimer => none
  | some s, .step => stepResponse s
  | some s, .tickTimers => some (some (Machine.tickTimers s), .ok)
  | some s, .setKey k p => some (some (Machine.setKey s k p), .ok)
  | some s, .readFramebuffer => some (some s, .pixels (Machine.readFramebuffer s))
  | some s, .readSoundTimer => some (some s, .sound (Machine.readSoundTimer s))

/-- The numeric code of an error (R178, D18). -/
def faultCode : Fault → Nat
  | .unknownOpcode _ => 0
  | .stackOverflow => 1
  | .stackUnderflow => 2
  | .memoryOutOfBounds _ => 3
  | .programTooLarge => 4

/-- The 16-bit payload of an error, 0 for the kinds that carry none (R178). -/
def faultPayload : Fault → Word
  | .unknownOpcode w => w
  | .stackOverflow => 0x0000#16
  | .stackUnderflow => 0x0000#16
  | .memoryOutOfBounds a => a
  | .programTooLarge => 0x0000#16

end Sys2Proof.Machine
end

