-- ==== Sys2Proof/Safety.lean ====
section
/-! DEFINITION. The terms that claims use: the ranges that hold in every reachable state (R39), the runs of the block, and
what each instruction may write (the access matrix R40). -/

namespace Sys2Proof.Machine

/-- The values R39 gives stack entry `k`: a live one is 2 to 4096, a dead one may also be the 0 of `Reset`. -/
abbrev EntryInRange (s : State) (k : Fin 16) : Prop :=
  (s.stack[k.val].toNat = 0 ∧ s.sp.val ≤ k.val) ∨ (2 ≤ s.stack[k.val].toNat ∧ s.stack[k.val].toNat ≤ 4096)

/-- The invariant of the machine: `PC` at most 0x10FE and the stack entries in their ranges (R39), and, the model's own choice
and in no rule, memory in canonical form (DESIGN CHOICE, log 4); the ranges of all other state are its types. -/
abbrev Inv (s : State) : Prop :=
  memWf s.mem = true ∧ s.pc.toNat ≤ 0x10FE ∧ ∀ k : Fin 16, EntryInRange s k

/-- The block after any finite sequence of transactions, from no machine at all (R186, R202). -/
inductive Reachable : Block → Prop where
  | start : Reachable none
  | move {b b' : Block} {t : Transaction} {r : Response} :
      Reachable b → perform b t = some (b', r) → Reachable b'

/-- A safe step: one that does not end in an error (R170). -/
def SafeStep (s : State) : Prop := ∃ t, step s = .next t

/-- The six instructions that write VF as a side effect (R21). -/
def setsFlag : Instr → Bool
  | .addReg _ _ | .subReg _ _ | .subnReg _ _ | .shr _ _ | .shl _ _ | .drw _ _ _ => true
  | _ => false

/-- May the instruction write `V[k]` as a destination it names (R40, column writes, without the VF of R21)? -/
def namesV : Instr → Nibble → Bool
  | .ldImm x _, k | .addImm x _, k | .ldReg x _, k | .orReg x _, k | .andReg x _, k | .xorReg x _, k => k == x
  | .addReg x _, k | .subReg x _, k | .subnReg x _, k | .shr x _, k | .shl x _, k | .rnd x _, k => k == x
  | .ldVxDt x, k | .ldVxK x, k => k == x
  | .loadRegs x, k => decide (k.toNat ≤ x.toNat)
  | _, _ => false

/-- May the instruction write `V[k]` at all (R40)? -/
def writesV (i : Instr) (k : Nibble) : Bool := namesV i k || (setsFlag i && k == vf)

/-- The writers of `I` (R22). -/
def writesI : Instr → Bool
  | .ldI _ | .addI _ | .ldF _ => true
  | _ => false

/-- The instructions that leave `PC` elsewhere than `PC_next` (R24). -/
def writesPc : Instr → Bool
  | .ret | .jp _ | .call _ | .jpV0 _ | .seImm _ _ | .sneImm _ _ | .seReg _ _ | .sneReg _ _ => true
  | .skp _ | .sknp _ | .ldVxK _ => true
  | _ => false

/-- The writers of `SP` (R26). -/
def writesSp : Instr → Bool
  | .call _ | .ret => true
  | _ => false

/-- The writer of `STACK` (R27, R40). -/
def writesStack : Instr → Bool
  | .call _ => true
  | _ => false

/-- The writers of `MEM` (R31). -/
def writesMem : Instr → Bool
  | .ldB _ | .storeRegs _ => true
  | _ => false

/-- The writers of `FB` (R30). -/
def writesFb : Instr → Bool
  | .cls | .drw _ _ _ => true
  | _ => false

/-- The instructions that read the keypad (R29). -/
def readsKeys : Instr → Bool
  | .skp _ | .sknp _ | .ldVxK _ => true
  | _ => false

/-- How many bytes of memory at `I` the instruction accesses (R50, R56). -/
def accessLength : Instr → Nat
  | .drw _ _ n => n.toNat
  | .ldB _ => 3
  | .storeRegs x | .loadRegs x => x.toNat + 1
  | _ => 0

/-- Where R24 says a step from `s` that runs the instruction leaves `PC`, as an unbounded number. -/
def pcAfter (s : State) : Instr → Nat
  | .jp nnn | .call nnn => nnn.toNat
  | .jpV0 nnn => nnn.toNat + (getV s v0).toNat
  | .ret => if h : s.sp.val = 0 then s.pc.toNat else (s.stack[s.sp.val - 1]'(by omega)).toNat
  | .seImm x kk => if getV s x = kk then s.pc.toNat + 4 else s.pc.toNat + 2
  | .sneImm x kk => if getV s x = kk then s.pc.toNat + 2 else s.pc.toNat + 4
  | .seReg x y => if getV s x = getV s y then s.pc.toNat + 4 else s.pc.toNat + 2
  | .sneReg x y => if getV s x = getV s y then s.pc.toNat + 2 else s.pc.toNat + 4
  | .skp x => if keyDown s (keyIndex (getV s x)) = true then s.pc.toNat + 4 else s.pc.toNat + 2
  | .sknp x => if keyDown s (keyIndex (getV s x)) = true then s.pc.toNat + 2 else s.pc.toNat + 4
  | .ldVxK _ => if ∃ k : Nibble, keyDown s k = true then s.pc.toNat + 2 else s.pc.toNat
  | _ => s.pc.toNat + 2

/-- The instruction word at `PC` (R52), for states whose fetch is inside memory. -/
def wordAtPc (s : State) : Word := wordOfBytes (memRead s.mem s.pc.toNat) (memRead s.mem (s.pc.toNat + 1))

/-- The fetch of `s` succeeds and its word decodes to the instruction (R91 to R94). -/
def Fetches (s : State) (i : Instr) : Prop := s.pc.toNat ≤ 4094 ∧ decodeWord (wordAtPc s) = .ok i

/-- The mask `M[row][col]` of R152 for a sprite at `(x0, y0)`: some row `r` and column offset `c` of the sprite with a set
bit fall on the pixel. -/
abbrev Covered (x0 y0 : Byte) (rows : List Byte) (row : Fin 32) (col : Fin 64) : Prop :=
  ∃ r : Fin rows.length, ∃ c : Fin 8,
    row.val = (y0.toNat + r.val) % 32 ∧ col.val = (x0.toNat + c.val) % 64 ∧ rows[r].getLsbD (7 - c.val) = true

end Sys2Proof.Machine
end

