-- ==== Sys2Proof/Certificates/Slice0/Obligations.lean ====
section
/-! DEFINITION. The statements for the provers, from the numbered rules of spec/. `exec i s` is given the state whose `PC` is
already advanced (40_step_decode_dispatch.md R92, R12). `t = { s with v := t.v }` says that `t` is `s` but for the V
registers; every other field, memory included, is the same. A statement that rests on a decision the spec marks as its own
says so and names the log entry. -/

open Sys2Proof Sys2Proof.Machine

/-! ## Encoding (30_encoding.md) -/

/-- Words of 95_test_vectors.md Part 2, at least one a family, decode to the instruction they stand for (R75; the patterns
are the spec's decision D2, log 16). -/
def Obligations.SpecWordsDecode : Prop :=
  decodeWord 0x00EE#16 = .ok .ret ∧ decodeWord 0x1ABC#16 = .ok (.jp 0xABC#12) ∧
  decodeWord 0x9120#16 = .ok (.sneReg 1#4 2#4) ∧ decodeWord 0x6005#16 = .ok (.ldImm 0#4 0x05#8) ∧
  decodeWord 0x8014#16 = .ok (.addReg 0#4 1#4) ∧ decodeWord 0x8BC6#16 = .ok (.shr 11#4 12#4) ∧
  decodeWord 0xA2F0#16 = .ok (.ldI 0x2F0#12) ∧ decodeWord 0xF533#16 = .ok (.ldB 5#4) ∧
  decodeWord 0xD345#16 = .ok (.drw 3#4 4#4 5#4) ∧ decodeWord 0xE2A1#16 = .ok (.sknp 2#4) ∧
  decodeWord 0xF318#16 = .ok (.ldStVx 3#4) ∧ decodeWord 0x0FFF#16 = .error (.unknownOpcode 0x0FFF#16)

/-- Decode of encode is the instruction, for every instruction and every value of every operand, whatever bytes follow
(R70, R73, R75, R77). -/
def Obligations.DecodeOfEncode : Prop :=
  ∀ (i : Instr) (rest : List Byte), decodeWord (encode i) = .ok i ∧ decode (encodeBytes i ++ rest) = .ok (i, rest)

/-- Every word that decodes is the word of what it decodes to: no bit of a word is dropped, the ignored `y` of 8xy6 and
8xyE included (R71, R77). -/
def Obligations.EncodeOfDecode : Prop :=
  ∀ (w : Word) (i : Instr), decodeWord w = .ok i → encode i = w

/-- The decoder by nibbles and the opcode table by match and mask agree on every word, and no word selects two rows (R74,
R75, R94). -/
def Obligations.DecoderFollowsOpcodeTable : Prop :=
  ∀ w : Word,
    (∀ i, decodeWord w = .ok i → ∃ r ∈ opcodeTable, r.selects w = true ∧ r.mnemonic = i.mnemonic) ∧
    ((∃ r ∈ opcodeTable, r.selects w = true) → ∃ i, decodeWord w = .ok i) ∧
    (∀ r ∈ opcodeTable, ∀ r' ∈ opcodeTable, r.selects w = true → r'.selects w = true → r = r')

/-- The unknown opcodes are exactly those of the class table of R76 (strict matching is the spec's decision D3, log 17), and
each is rejected under its own value. -/
def Obligations.UnknownWordsByClass : Prop :=
  ∀ w : Word, decodeWord w = .error (.unknownOpcode w) ↔
    (nib1 w = 0x0#4 ∧ w ≠ 0x00E0#16 ∧ w ≠ 0x00EE#16) ∨
    (nib1 w = 0x5#4 ∧ nib4 w ≠ 0#4) ∨
    (nib1 w = 0x8#4 ∧ nib4 w ∈ [0x8#4, 0x9#4, 0xA#4, 0xB#4, 0xC#4, 0xD#4, 0xF#4]) ∨
    (nib1 w = 0x9#4 ∧ nib4 w ≠ 0#4) ∨
    (nib1 w = 0xE#4 ∧ fieldKk w ∉ [0x9E#8, 0xA1#8]) ∨
    (nib1 w = 0xF#4 ∧
      fieldKk w ∉ [0x07#8, 0x0A#8, 0x15#8, 0x18#8, 0x1E#8, 0x29#8, 0x33#8, 0x55#8, 0x65#8])

/-- The nibbles and fields of every word, and where memory holds them (R71). -/
def Obligations.DecoderFieldsOfEveryWord : Prop :=
  (∀ w : Word,
    (nib1 w).toNat = w.toNat / 4096 ∧ (nib2 w).toNat = w.toNat / 256 % 16 ∧
    (nib3 w).toNat = w.toNat / 16 % 16 ∧ (nib4 w).toNat = w.toNat % 16 ∧
    fieldX w = nib2 w ∧ fieldY w = nib3 w ∧ fieldN w = nib4 w ∧
    (fieldKk w).toNat = 16 * (nib3 w).toNat + (nib4 w).toNat ∧
    (fieldNnn w).toNat = 256 * (nib2 w).toNat + 16 * (nib3 w).toNat + (nib4 w).toNat) ∧
  (∀ (s : State) (w : Word), fetchWord s = .ok w →
    (memRead s.mem s.pc.toNat).toNat = 16 * (nib1 w).toNat + (nib2 w).toNat ∧
    (memRead s.mem (s.pc.toNat + 1)).toNat = 16 * (nib3 w).toNat + (nib4 w).toNat)

/-! ## The step (40_step_decode_dispatch.md, 60_exceptions.md) -/

/-- The fetch: big-endian at any `PC` up to 4094, odd ones included; above it the bounds error with the address R91 gives,
and nothing else happens. -/
def Obligations.FetchBigEndianOrOutOfBounds : Prop :=
  ∀ s : State,
    (s.pc.toNat ≤ 4094 → ∃ w, fetchWord s = .ok w ∧
      w.toNat = 256 * (memRead s.mem s.pc.toNat).toNat + (memRead s.mem (s.pc.toNat + 1)).toNat) ∧
    (s.pc.toNat = 4095 → step s = .fault (.memoryOutOfBounds 4096#16) ∧
      perform (some s) .step = some (some s, .error (.memoryOutOfBounds 4096#16))) ∧
    (4095 < s.pc.toNat → step s = .fault (.memoryOutOfBounds s.pc) ∧
      perform (some s) .step = some (some s, .error (.memoryOutOfBounds s.pc)))

/-- When the two bytes at `PC` decode to an instruction, the step is that instruction run from `s` with `PC` moved on by 2
and nothing else changed (R92, R96). -/
def Obligations.StepRunsDecodedInstruction : Prop :=
  ∀ (s : State) (i : Instr), s.pc.toNat ≤ 4094 →
    decode [memRead s.mem s.pc.toNat, memRead s.mem (s.pc.toNat + 1)] = .ok (i, []) →
    ∃ p : Word, p.toNat = s.pc.toNat + 2 ∧ step s = exec i { s with pc := p }

/-- The bytes of an instruction stored at `PC` by any means are what the very next step runs (R63, R59). The premise
`memWf` is the model's memory form (log 4). -/
def Obligations.StoredBytesAreFetched : Prop :=
  ∀ (s t : State) (i : Instr), memWf s.mem = true → s.pc.toNat ≤ 4094 →
    writeRange s s.pc.toNat (encodeBytes i) = .ok t → step t = exec i (advance t)

/-- A word that matches no row is reported with its value and changes nothing (R95, R97: the spec's decision D5, log 5). -/
def Obligations.UnknownWordIsReported : Prop :=
  ∀ s : State, s.pc.toNat ≤ 4094 → (∀ r ∈ opcodeTable, r.selects (wordAtPc s) = false) →
    perform (some s) .step = some (some s, .error (.unknownOpcode (wordAtPc s)))

/-- A `Step` that reports an error leaves the machine as it was, and the next `Step` reports the same error (R97, R177: the
spec's decisions D5, D19, log 5). -/
def Obligations.FailedStepChangesNothingAndRepeats : Prop :=
  ∀ (s : State) (b : Block) (e : Fault), perform (some s) .step = some (b, .error e) →
    b = some s ∧ perform b .step = some (b, .error e)

/-- The order of the errors of one step: the fetch, then the unknown opcode, then the one error of the instruction, which is
neither of the load's nor an unknown opcode; no step is refused (R98, R175: the spec's decision D17, log 20). -/
def Obligations.StepErrorsInPhaseOrder : Prop :=
  ∀ s : State,
    (∀ e, step s = .fault e →
      (4094 < s.pc.toNat ∧ e = .memoryOutOfBounds (if s.pc.toNat = 4095 then 4096#16 else s.pc)) ∨
      (s.pc.toNat ≤ 4094 ∧ wordWf (wordAtPc s) = false ∧ e = .unknownOpcode (wordAtPc s)) ∨
      (∃ i, Fetches s i ∧ exec i (advance s) = .fault e ∧
        (e = .stackOverflow ∨ e = .stackUnderflow ∨ ∃ a, e = .memoryOutOfBounds a))) ∧
    (∀ r, step s ≠ .refused r)

/-- `StackOverflow` is raised by 2nnn with `SP` = 16 and by nothing else (R172). -/
def Obligations.StackOverflowExactlyOnFullCall : Prop :=
  (∀ (i : Instr) (s : State), exec i s = .fault .stackOverflow ↔ (∃ nnn, i = .call nnn) ∧ s.sp.val = 16) ∧
  (∀ s : State, step s = .fault .stackOverflow ↔ (∃ nnn, Fetches s (.call nnn)) ∧ s.sp.val = 16)

/-- `StackUnderflow` is raised by 00EE with `SP` = 0 and by nothing else (R173). -/
def Obligations.StackUnderflowExactlyOnEmptyReturn : Prop :=
  (∀ (i : Instr) (s : State), exec i s = .fault .stackUnderflow ↔ i = .ret ∧ s.sp.val = 0) ∧
  (∀ s : State, step s = .fault .stackUnderflow ↔ Fetches s .ret ∧ s.sp.val = 0)

/-- `MemoryOutOfBounds` of an instruction: exactly where it accesses at least one byte and its range at `I` does not fit, with
the lowest failing address (R56, R174: the spec's decision D6, log 13); so an access of no byte raises nothing. -/
def Obligations.MemoryOutOfBoundsExactlyPastTheEnd : Prop :=
  ∀ (i : Instr) (s : State) (a : Word), exec i s = .fault (.memoryOutOfBounds a) ↔
    accessLength i ≠ 0 ∧ 4095 < s.i.toNat + accessLength i - 1 ∧
      a.toNat = (if 4095 < s.i.toNat then s.i.toNat else 4096)

/-- The 28 instructions that raise nothing complete from every state, and the other six complete wherever their check passes
(R98, R100, R102, R144 to R146, R151; derived by the spec itself in R98). -/
def Obligations.EveryInstructionCompletesWhereItsCheckPasses : Prop :=
  ∀ (i : Instr) (s : State),
    (∀ nnn, i = .call nnn → s.sp.val ≠ 16) → (i = .ret → s.sp.val ≠ 0) →
    (accessLength i = 0 ∨ s.i.toNat + accessLength i - 1 ≤ 4095) → ∃ t, exec i s = .next t

/-! ## Control transfer (41_control_transfer.md) -/

/-- JP: every word of class 1 is a jump, the jump goes to `nnn` and changes nothing else, a jump to itself leaves the state as
it is, and a jump to 0xFFF fails at the next fetch (R101). -/
def Obligations.JumpGoesToItsAddress : Prop :=
  (∀ w : Word, w &&& 0xF000#16 = 0x1000#16 → ∃ nnn : Addr12, nnn.toNat = w.toNat % 4096 ∧ decodeWord w = .ok (.jp nnn)) ∧
  (∀ (nnn : Addr12) (s : State), ∃ t, exec (.jp nnn) s = .next t ∧ t.pc.toNat = nnn.toNat ∧ t = { s with pc := t.pc } ∧
    (nnn = 0xFFF#12 → step t = .fault (.memoryOutOfBounds 4096#16))) ∧
  (∀ (nnn : Addr12) (s : State), Fetches s (.jp nnn) → nnn.toNat = s.pc.toNat → step s = .next s)

/-- CALL pushes the address after it once and jumps (R102; one push: conflict C2, log 21; layout D24). -/
def Obligations.CallPushesItsReturnAddress : Prop :=
  ∀ (nnn : Addr12) (s : State) (h : s.sp.val < 16), ∃ t, exec (.call nnn) s = .next t ∧
    t.pc.toNat = nnn.toNat ∧ t.sp.val = s.sp.val + 1 ∧ t.stack[s.sp.val] = s.pc ∧
    (∀ k : Fin 16, k.val ≠ s.sp.val → t.stack[k.val] = s.stack[k.val]) ∧
    t = { s with pc := t.pc, sp := t.sp, stack := t.stack }

/-- RET pops the most recent entry into `PC`, used as it is, and leaves the entry where it was (R100, R27: layout D24). -/
def Obligations.ReturnPopsTheLastAddress : Prop :=
  ∀ (s : State) (h : s.sp.val ≠ 0), ∃ t, exec .ret s = .next t ∧
    t.pc = s.stack[s.sp.val - 1]'(by omega) ∧ t.sp.val + 1 = s.sp.val ∧ t = { s with pc := t.pc, sp := t.sp }

/-- A return from any state that still has the stack a call left restores `PC` to the address after the call and the depth
to what it was (R100, R102; 95_test_vectors.md S6). -/
def Obligations.CallThenReturnRoundTrip : Prop :=
  ∀ (nnn : Addr12) (s t r : State), exec (.call nnn) s = .next t → r.sp = t.sp → r.stack = t.stack →
    ∃ u, exec .ret r = .next u ∧ u.pc = s.pc ∧ u.sp = s.sp

/-- SE and SNE with an immediate skip exactly one word exactly when the bytes are equal, or differ, and change nothing but
`PC` (R103, R104). -/
def Obligations.SkipsOnImmediate : Prop :=
  ∀ (x : Nibble) (kk : Byte) (s : State),
    (∃ t, exec (.seImm x kk) s = .next t ∧ t = { s with pc := t.pc } ∧
      ((getV s x).toNat = kk.toNat → t.pc = s.pc + 2#16) ∧ ((getV s x).toNat ≠ kk.toNat → t.pc = s.pc)) ∧
    (∃ t, exec (.sneImm x kk) s = .next t ∧ t = { s with pc := t.pc } ∧
      ((getV s x).toNat ≠ kk.toNat → t.pc = s.pc + 2#16) ∧ ((getV s x).toNat = kk.toNat → t.pc = s.pc))

/-- SE and SNE on two registers (R105, R106); with `x = y` the first always skips and the second never does. -/
def Obligations.SkipsOnRegisters : Prop :=
  ∀ (x y : Nibble) (s : State),
    (∃ t, exec (.seReg x y) s = .next t ∧ t = { s with pc := t.pc } ∧
      ((getV s x).toNat = (getV s y).toNat → t.pc = s.pc + 2#16) ∧
      ((getV s x).toNat ≠ (getV s y).toNat → t.pc = s.pc)) ∧
    (∃ t, exec (.sneReg x y) s = .next t ∧ t = { s with pc := t.pc } ∧
      ((getV s x).toNat ≠ (getV s y).toNat → t.pc = s.pc + 2#16) ∧
      ((getV s x).toNat = (getV s y).toNat → t.pc = s.pc))

/-- JP V0: the sum is not reduced, so it is at most 0x10FE, and a sum above 4094 fails at the next fetch (R108). -/
def Obligations.JumpWithOffsetIsNotReduced : Prop :=
  ∀ (nnn : Addr12) (s : State), ∃ t, exec (.jpV0 nnn) s = .next t ∧
    t.pc.toNat = nnn.toNat + (getV s 0x0#4).toNat ∧ t.pc.toNat ≤ 0x10FE ∧ t = { s with pc := t.pc } ∧
    (4094 < t.pc.toNat → step t = .fault (.memoryOutOfBounds (if t.pc.toNat = 4095 then 4096#16 else t.pc)))

/-! ## The ALU (42_alu.md) -/

/-- LD Vx, kk: every word of class 6 is one, and it writes `kk` to `V[x]`, VF included as a plain destination, and nothing
else (R120). -/
def Obligations.LoadImmediateWritesItsRegister : Prop :=
  (∀ w : Word, w &&& 0xF000#16 = 0x6000#16 → ∃ (x : Nibble) (kk : Byte),
    x.toNat = w.toNat / 256 % 16 ∧ kk.toNat = w.toNat % 256 ∧ decodeWord w = .ok (.ldImm x kk)) ∧
  (∀ (x : Nibble) (kk : Byte) (s : State), ∃ t, exec (.ldImm x kk) s = .next t ∧
    getV t x = kk ∧ (∀ k, k ≠ x → getV t k = getV s k) ∧ t = { s with v := t.v })

/-- ADD Vx, kk wraps modulo 256 and writes no flag (R121). -/
def Obligations.AddImmediateWrapsWithoutFlag : Prop :=
  ∀ (x : Nibble) (kk : Byte) (s : State), ∃ t, exec (.addImm x kk) s = .next t ∧
    (getV t x).toNat = ((getV s x).toNat + kk.toNat) % 256 ∧ (∀ k, k ≠ x → getV t k = getV s k) ∧
    t = { s with v := t.v }

/-- Copy, OR, AND, XOR, bit by bit, into `V[x]` alone (R122 to R125). -/
def Obligations.CopyAndLogicBitwise : Prop :=
  ∀ (x y : Nibble) (s : State),
    (∃ t, exec (.ldReg x y) s = .next t ∧ getV t x = getV s y ∧
      (∀ k, k ≠ x → getV t k = getV s k) ∧ t = { s with v := t.v }) ∧
    (∃ t, exec (.orReg x y) s = .next t ∧
      (∀ j, (getV t x).getLsbD j = ((getV s x).getLsbD j || (getV s y).getLsbD j)) ∧
      (∀ k, k ≠ x → getV t k = getV s k) ∧ t = { s with v := t.v }) ∧
    (∃ t, exec (.andReg x y) s = .next t ∧
      (∀ j, (getV t x).getLsbD j = ((getV s x).getLsbD j && (getV s y).getLsbD j)) ∧
      (∀ k, k ≠ x → getV t k = getV s k) ∧ t = { s with v := t.v }) ∧
    (∃ t, exec (.xorReg x y) s = .next t ∧
      (∀ j, (getV t x).getLsbD j = ((getV s x).getLsbD j ^^ (getV s y).getLsbD j)) ∧
      (∀ k, k ≠ x → getV t k = getV s k) ∧ t = { s with v := t.v })

/-- ADD Vx, Vy: VF is the carry out of bit 7 whatever `x` is, and for `x ≠ 15` result and flag together are the true sum
(R126, R133; that the flag is written last is the spec's decision D8, log 12). -/
def Obligations.AddWithCarryIsTheTrueSum : Prop :=
  ∀ (x y : Nibble) (s : State), ∃ t, exec (.addReg x y) s = .next t ∧
    (getV t 0xF#4).toNat = (if 255 < (getV s x).toNat + (getV s y).toNat then 1 else 0) ∧
    (x ≠ 0xF#4 → (getV t x).toNat + 256 * (getV t 0xF#4).toNat = (getV s x).toNat + (getV s y).toNat) ∧
    (∀ k, k ≠ x → k ≠ 0xF#4 → getV t k = getV s k) ∧ t = { s with v := t.v }

/-- SUB and SUBN: the difference modulo 256, and VF = 1 exactly when the minuend is strictly greater, so equal operands give
0 and 0 (R127, R128: conflict C3, log 21; flag last: the spec's decision D8, log 12). -/
def Obligations.SubtractFlagIsStrictlyGreater : Prop :=
  ∀ (x y : Nibble) (s : State),
    (∃ t, exec (.subReg x y) s = .next t ∧
      (getV t 0xF#4).toNat = (if (getV s y).toNat < (getV s x).toNat then 1 else 0) ∧
      (x ≠ 0xF#4 → (getV t x).toNat = ((getV s x).toNat + 256 - (getV s y).toNat) % 256) ∧
      (∀ k, k ≠ x → k ≠ 0xF#4 → getV t k = getV s k) ∧ t = { s with v := t.v }) ∧
    (∃ t, exec (.subnReg x y) s = .next t ∧
      (getV t 0xF#4).toNat = (if (getV s x).toNat < (getV s y).toNat then 1 else 0) ∧
      (x ≠ 0xF#4 → (getV t x).toNat = ((getV s y).toNat + 256 - (getV s x).toNat) % 256) ∧
      (∀ k, k ≠ x → k ≠ 0xF#4 → getV t k = getV s k) ∧ t = { s with v := t.v })

/-- SHR and SHL: result and flag together are the old value, whatever `y` is; VF is the bit shifted out whatever `x` is
(R129, R130; flag last: the spec's decision D8, log 12). -/
def Obligations.ShiftsKeepEveryBit : Prop :=
  ∀ (x y : Nibble) (s : State),
    (∃ t, exec (.shr x y) s = .next t ∧ (getV t 0xF#4).toNat = (getV s x).toNat % 2 ∧
      (x ≠ 0xF#4 → 2 * (getV t x).toNat + (getV t 0xF#4).toNat = (getV s x).toNat) ∧
      (∀ k, k ≠ x → k ≠ 0xF#4 → getV t k = getV s k) ∧ t = { s with v := t.v }) ∧
    (∃ t, exec (.shl x y) s = .next t ∧ (getV t 0xF#4).toNat = (getV s x).toNat / 128 ∧
      (x ≠ 0xF#4 → (getV t x).toNat + 256 * (getV t 0xF#4).toNat = 2 * (getV s x).toNat) ∧
      (∀ k, k ≠ x → k ≠ 0xF#4 → getV t k = getV s k) ∧ t = { s with v := t.v })

/-- The six instructions that write VF as a flag leave 0x00 or 0x01 in it, whatever their operands (R21, R133, R151; flag
last: the spec's decision D8, log 12). -/
def Obligations.FlagIsZeroOrOne : Prop :=
  ∀ (i : Instr) (s t : State), setsFlag i = true → exec i s = .next t →
    getV t 0xF#4 = 0x00#8 ∨ getV t 0xF#4 = 0x01#8

/-- RND: `V[x]` is the random byte of the step AND `kk`, for every byte `r` the host may supply; one byte is consumed and
nothing else changes (R131: the free input is the spec's decision D12, log 1). -/
def Obligations.RandomByteUnderMask : Prop :=
  (∀ (x : Nibble) (kk : Byte) (s : State), ∃ t, exec (.rnd x kk) s = .next t ∧
    getV t x = Config.randByte s.draws &&& kk ∧ getV t x &&& ~~~kk = 0x00#8 ∧
    (∀ k, k ≠ x → getV t k = getV s k) ∧ t.draws = s.draws + 1 ∧ t = { s with v := t.v, draws := t.draws }) ∧
  (∀ (r : Byte) (x : Nibble) (kk : Byte) (s : State),
    getV (rndWith r x kk s) x = r &&& kk ∧ getV (rndWith r x kk s) x &&& ~~~kk = 0x00#8)

/-- A V register that the access matrix does not let an instruction write is unchanged: VF above all, which changes only as
the flag of the six or as a named destination (R21, R40; derived by the spec itself). -/
def Obligations.RegistersOutsideTheMatrixKeepTheirValue : Prop :=
  ∀ (i : Instr) (s t : State) (k : Nibble), exec i s = .next t → writesV i k = false → getV t k = getV s k

/-- The access matrix for all other state: only the instructions it names write `I`, `PC` (beyond the advance), `SP`, `STACK`,
`DT`, `ST`, `FB` or a byte of memory; none writes a key; only Cxkk consumes a random byte (R22, R26 to R31, R40, R131;
derived by the spec itself). -/
def Obligations.OnlyTheMatrixWrites : Prop :=
  ∀ (i : Instr) (s t : State), exec i s = .next t →
    (writesI i = false → t.i = s.i) ∧ (writesPc i = false → t.pc = s.pc) ∧
    (writesSp i = false → t.sp = s.sp) ∧ (writesStack i = false → t.stack = s.stack) ∧
    (writesFb i = false → t.fb = s.fb) ∧ (writesMem i = false → ∀ a, memRead t.mem a = memRead s.mem a) ∧
    ((∀ x, i ≠ .ldDtVx x) → t.dt = s.dt) ∧ ((∀ x, i ≠ .ldStVx x) → t.st = s.st) ∧
    t.keys = s.keys ∧ ((∀ x kk, i ≠ .rnd x kk) → t.draws = s.draws)

/-! ## Index register and memory (43_index_and_memory.md) -/

/-- LD I, ADD I and LD F write `I` and nothing else: `nnn`; the sum modulo 65536 with VF unchanged; five times all eight bits
of `Vx` (R140 to R142; the spec's decisions D15, D16, log 18). -/
def Obligations.IndexRegisterInstructions : Prop :=
  (∀ (nnn : Addr12) (s : State), ∃ t, exec (.ldI nnn) s = .next t ∧ t.i.toNat = nnn.toNat ∧ t = { s with i := t.i }) ∧
  (∀ (x : Nibble) (s : State), ∃ t, exec (.addI x) s = .next t ∧
    t.i.toNat = (s.i.toNat + (getV s x).toNat) % 65536 ∧ t = { s with i := t.i }) ∧
  (∀ (x : Nibble) (s : State), ∃ t, exec (.ldF x) s = .next t ∧
    t.i.toNat = 5 * (getV s x).toNat ∧ t = { s with i := t.i })

/-- LD B stores the three decimal digits of `Vx`, hundreds first, at `I`, and changes no other byte and no register (R144;
whole-range check: the spec's decision D6, log 13; the font is not protected: D9, log 11). The premise `memWf` is the
model's memory form (log 4). -/
def Obligations.BcdStoresThreeDigits : Prop :=
  ∀ (x : Nibble) (s : State), memWf s.mem = true → s.i.toNat ≤ 4093 → ∃ t, exec (.ldB x) s = .next t ∧
    100 * (memRead t.mem (indexBase s)).toNat + 10 * (memRead t.mem (indexBase s + 1)).toNat +
      (memRead t.mem (indexBase s + 2)).toNat = (getV s x).toNat ∧
    (∀ k, k ≤ 2 → (memRead t.mem (indexBase s + k)).toNat ≤ 9) ∧
    (∀ a, a < indexBase s ∨ indexBase s + 2 < a → memRead t.mem a = memRead s.mem a) ∧ t = { s with mem := t.mem }

/-- LD [I], Vx stores V0 to Vx at `I` upward, and changes no other byte and no register, `I` included (R145; log 11, 13, 19).
The premise `memWf` is the model's memory form (log 4). -/
def Obligations.StoreRegistersWritesTheRange : Prop :=
  ∀ (x : Nibble) (s : State), memWf s.mem = true → s.i.toNat + x.toNat ≤ 4095 →
    ∃ t, exec (.storeRegs x) s = .next t ∧
      (∀ k : Nibble, k.toNat ≤ x.toNat → memRead t.mem (indexBase s + k.toNat) = getV s k) ∧
      (∀ a, a < indexBase s ∨ indexBase s + x.toNat < a → memRead t.mem a = memRead s.mem a) ∧ t = { s with mem := t.mem }

/-- LD Vx, [I] loads V0 to Vx from `I` upward and changes nothing else, `I` included (R146; log 13, 19). -/
def Obligations.LoadRegistersReadsTheRange : Prop :=
  ∀ (x : Nibble) (s : State), s.i.toNat + x.toNat ≤ 4095 →
    ∃ t, exec (.loadRegs x) s = .next t ∧
      (∀ k : Nibble, k.toNat ≤ x.toNat → getV t k = memRead s.mem (indexBase s + k.toNat)) ∧
      (∀ k : Nibble, x.toNat < k.toNat → getV t k = getV s k) ∧ t = { s with v := t.v }

/-- Storing V0 to Vx and loading them back, from any later state with the same memory and `I`, restores their values (R145,
R146; 95_test_vectors.md S7). The premise `memWf` is the model's memory form (log 4). -/
def Obligations.StoreThenLoadRoundTrip : Prop :=
  ∀ (x : Nibble) (s t r : State), memWf s.mem = true → exec (.storeRegs x) s = .next t →
    r.mem = t.mem → r.i = s.i →
    ∃ u, exec (.loadRegs x) r = .next u ∧ ∀ k : Nibble, k.toNat ≤ x.toNat → getV u k = getV s k

/-! ## Display (44_display.md) -/

/-- CLS makes every pixel 0 and changes nothing else, VF included (R150). -/
def Obligations.ClearScreenClearsEveryPixel : Prop :=
  ∀ s : State, ∃ t, exec .cls s = .next t ∧ (∀ row col, getPixel t.fb row col = false) ∧ t = { s with fb := t.fb }

/-- The loops of R151 on a framebuffer compute the mask form of R152: each pixel is flipped exactly when the mask covers it,
and `hit` says whether some lit pixel is covered (derived by the spec itself; bit order: the spec's decision D21, log 10). -/
def Obligations.DrawLoopsComputeTheMask : Prop :=
  ∀ (fb : Pixels) (x0 y0 : Byte) (rows : List Byte), rows.length ≤ 15 →
    (∀ row col, getPixel (drawSprite fb x0 y0 rows).1 row col = true ↔
      ¬ (getPixel fb row col = true ↔ Covered x0 y0 rows row col)) ∧
    ((drawSprite fb x0 y0 rows).2 = true ↔ ∃ row col, getPixel fb row col = true ∧ Covered x0 y0 rows row col)

/-- DRW completes where its range fits or `n` = 0, XORs the sprite at the old `(V[x], V[y])`, sets VF to the collision, and
changes nothing else (R151, R152; the spec's decisions D6, D7, D21, D22, log 10, 12, 13, 18). -/
def Obligations.DrawXorsTheSpriteAndFlagsCollision : Prop :=
  ∀ (x y n : Nibble) (s : State), n.toNat = 0 ∨ s.i.toNat + n.toNat - 1 ≤ 4095 →
    ∃ t, exec (.drw x y n) s = .next t ∧
      (∀ row col, getPixel t.fb row col = true ↔ ¬ (getPixel s.fb row col = true ↔
        Covered (getV s x) (getV s y) (memReadList s.mem s.i.toNat n.toNat) row col)) ∧
      getV t 0xF#4 = (if ∃ row col, getPixel s.fb row col = true ∧
        Covered (getV s x) (getV s y) (memReadList s.mem s.i.toNat n.toNat) row col then 0x01#8 else 0x00#8) ∧
      (∀ k, k ≠ 0xF#4 → getV t k = getV s k) ∧ t = { s with fb := t.fb, v := t.v }

/-- Drawing the same sprite twice at the same place restores the framebuffer (R153; for `x`, `y` not VF, which the first draw
overwrites). -/
def Obligations.DrawTwiceRestoresTheScreen : Prop :=
  ∀ (x y n : Nibble) (s t u : State), x ≠ 0xF#4 → y ≠ 0xF#4 →
    exec (.drw x y n) s = .next t → exec (.drw x y n) t = .next u → u.fb = s.fb

/-- After a draw VF is 1 exactly when some pixel was lit before and is unlit after (R151, R152). -/
def Obligations.CollisionIsAPixelTurnedOff : Prop :=
  ∀ (x y n : Nibble) (s t : State), exec (.drw x y n) s = .next t →
    (getV t 0xF#4 = 0x01#8 ↔ ∃ row col, getPixel s.fb row col = true ∧ getPixel t.fb row col = false)

/-! ## Keypad and timers (45_keypad_and_timers.md, 60_exceptions.md) -/

/-- SKP and SKNP test the key numbered by the low four bits of `Vx` and change nothing but `PC` (R160, R161: the spec's
decision D14, log 14). -/
def Obligations.KeySkipsTestTheLowNibble : Prop :=
  ∀ (x k : Nibble) (s : State), k.toNat = (getV s x).toNat % 16 →
    (∃ t, exec (.skp x) s = .next t ∧ t = { s with pc := t.pc } ∧
      (keyDown s k = true → t.pc = s.pc + 2#16) ∧ (keyDown s k = false → t.pc = s.pc)) ∧
    (∃ t, exec (.sknp x) s = .next t ∧ t = { s with pc := t.pc } ∧
      (keyDown s k = false → t.pc = s.pc + 2#16) ∧ (keyDown s k = true → t.pc = s.pc))

/-- LD Vx, K with a key pressed writes the index of the smallest pressed key and changes nothing else (R163: the spec's
decision D13, log 15). -/
def Obligations.KeyWaitReportsTheLowestKey : Prop :=
  ∀ (x k : Nibble) (s : State), keyDown s k = true → (∀ j : Nibble, j.toNat < k.toNat → keyDown s j = false) →
    ∃ t, exec (.ldVxK x) s = .next t ∧ (getV t x).toNat = k.toNat ∧
      (∀ j, j ≠ x → getV t j = getV s j) ∧ t = { s with v := t.v }

/-- LD Vx, K with no key pressed takes `PC` back by 2, so that a whole step from an Fx0A word changes nothing at all and ends
normally (R163, R34, R99). -/
def Obligations.KeyWaitWithoutKeyIsReissued : Prop :=
  (∀ (x : Nibble) (s : State), (∀ k, keyDown s k = false) →
    ∃ t, exec (.ldVxK x) s = .next t ∧ t.pc + 2#16 = s.pc ∧ t = { s with pc := t.pc }) ∧
  (∀ (x : Nibble) (s : State), (∀ k, keyDown s k = false) → Fetches s (.ldVxK x) → step s = .next s)

/-- Fx07, Fx15 and Fx18 move a timer's value and change nothing else; no time passes (R162, R164, R165). -/
def Obligations.TimerInstructionsMoveOneValue : Prop :=
  ∀ (x : Nibble) (s : State),
    (∃ t, exec (.ldVxDt x) s = .next t ∧ getV t x = s.dt ∧ (∀ k, k ≠ x → getV t k = getV s k) ∧ t = { s with v := t.v }) ∧
    (∃ t, exec (.ldDtVx x) s = .next t ∧ t.dt = getV s x ∧ t = { s with dt := t.dt }) ∧
    (∃ t, exec (.ldStVx x) s = .next t ∧ t.st = getV s x ∧ t = { s with st := t.st })

/-- An instruction that is not Ex9E, ExA1 or Fx0A does not depend on the keypad: it does the same under every keypad, its
error included (R29, R40, R180). This compares two runs; for Cxkk it says so of two runs that get the SAME random byte, since
both states have the same `draws`. That is the model's choice (log 1, DESIGN CHOICE, unsafe for claims that compare runs): a host
may supply different bytes. -/
def Obligations.KeypadReachesOnlyTheKeyInstructions : Prop :=
  ∀ (i : Instr) (s : State) (ks : Vector Bool 16), readsKeys i = false →
    (∀ t, exec i s = .next t → exec i { s with keys := ks } = .next { t with keys := ks }) ∧
    (∀ e, exec i s = .fault e → exec i { s with keys := ks } = .fault e)

/-- No instruction reads the sound timer: two states that differ in `ST` alone end in states that differ in `ST` at most, or
in the same error (R28, R162). This compares two runs; for Cxkk it says so of two runs that get the SAME random byte, since both
states have the same `draws`. That is the model's choice (log 1, DESIGN CHOICE, unsafe for claims that compare runs). The new
`ST` itself is left free here: that no instruction but Fx18 changes it is `OnlyTheMatrixWrites`, and that Fx18 writes `Vx` is
`TimerInstructionsMoveOneValue`. -/
def Obligations.NoInstructionReadsTheSoundTimer : Prop :=
  ∀ (i : Instr) (s : State) (b : Byte),
    (∀ t, exec i s = .next t → ∃ b', exec i { s with st := b } = .next { t with st := b' }) ∧
    (∀ e, exec i s = .fault e → exec i { s with st := b } = .fault e)

/-- `TickTimers` takes 1 from each timer that is not 0, each on its own, changes nothing else and cannot fail (R183). -/
def Obligations.TickTimersCountsBothDown : Prop :=
  ∀ s : State, ∃ t, perform (some s) .tickTimers = some (some t, .ok) ∧
    t.dt.toNat = s.dt.toNat - 1 ∧ t.st.toNat = s.st.toNat - 1 ∧ t = { s with dt := t.dt, st := t.st }

/-- `SetKey` writes one key and nothing else and cannot fail; of several writes to a key the last is what the next step sees
(R184). -/
def Obligations.SetKeyWritesOneKey : Prop :=
  (∀ (s : State) (k : Nibble) (p : Bool), ∃ t, perform (some s) (.setKey k p) = some (some t, .ok) ∧
    keyDown t k = p ∧ (∀ j, j ≠ k → keyDown t j = keyDown s j) ∧ t = { s with keys := t.keys }) ∧
  (∀ (s : State) (k : Nibble) (p q : Bool), setKey (setKey s k p) k q = setKey s k q)

/-! ## Reset (10_state.md, 70_reset_and_hazards.md) -/

/-- What a successful `Reset` leaves in everything but memory, from any block and with any image that fits (R36): all zero,
`PC` at 0x200, and the first instruction executed is the word at 0x200, 0x201. -/
def Obligations.ResetZeroesEverythingButMemory : Prop :=
  ∀ (b : Block) (img : List Byte), img.length ≤ 3584 → ∃ t, perform b (.reset img) = some (some t, .ok) ∧
    (∀ k, getV t k = 0x00#8) ∧ t.i.toNat = 0 ∧ t.pc.toNat = 0x200 ∧ t.sp.val = 0 ∧
    (∀ k : Fin 16, t.stack[k.val].toNat = 0) ∧ t.dt.toNat = 0 ∧ t.st.toNat = 0 ∧ (∀ k, keyDown t k = false) ∧
    (∀ row col, getPixel t.fb row col = false) ∧
    fetchWord t = .ok (wordOfBytes (memRead t.mem 0x200) (memRead t.mem 0x201))

/-- What a successful `Reset` leaves in memory (R37, R38): the font, the image at 0x200, zero elsewhere. The zeros and the
font bytes are the spec's decisions D10, D11 (log 2, 3). -/
def Obligations.ResetLoadsFontAndImage : Prop :=
  ∀ (b : Block) (img : List Byte), img.length ≤ 3584 → ∃ t, perform b (.reset img) = some (some t, .ok) ∧
    (∀ a (h : a < 80), memRead t.mem a = font[a]'(by simpa [font, fontLow, fontHigh] using h)) ∧
    (∀ k (h : k < img.length), memRead t.mem (0x200 + k) = img[k]) ∧
    (∀ a, (80 ≤ a ∧ a < 0x200) ∨ (0x200 + img.length ≤ a ∧ a < 4096) → memRead t.mem a = 0x00#8)

/-- A longer image is refused and leaves the block as it was, and no transaction but `Reset` exists before a machine does
(R201, R202: the spec's decision D20, log 9). -/
def Obligations.RefusedLoadAndUncreatedBlock : Prop :=
  (∀ (b : Block) (img : List Byte), 3584 < img.length → perform b (.reset img) = some (b, .error .programTooLarge)) ∧
  (∀ t : Transaction, (∃ out, perform none t = some out) ↔ ∃ img, t = .reset img)

/-! ## Invariants -/

/-- The invariant holds at `State.reset` and after every successful `Reset`. The ranges of `PC` and of the stack entries are
those of R39; the clause `memWf`, memory in canonical form, is in no rule of the spec and is the model's choice (log 4, DESIGN
CHOICE). -/
def Obligations.InvHoldsAtReset : Prop :=
  Inv State.reset ∧ ∀ (draws : Nat) (img : List Byte), img.length ≤ 3584 → Inv (created draws img)

/-- Every step keeps the invariant. `PC` at most 0x10FE and the stack entries in their ranges are R39, which the spec itself
derives; the clause `memWf`, memory in canonical form, is in no rule of the spec and is the model's choice (log 4, DESIGN
CHOICE). -/
def Obligations.StepKeepsInv : Prop :=
  ∀ s t : State, Inv s → step s = .next t → Inv t

/-- Every machine reached from nothing by any sequence of transactions has the ranges of R39 (R186; R39 is derived by the spec
itself). The clause `memWf`, memory in canonical form, is in no rule of the spec and is the model's choice (log 4, DESIGN
CHOICE). -/
def Obligations.ReachableMachinesAreInRange : Prop :=
  ∀ s : State, Reachable (some s) → Inv s

/-- Where every step leaves `PC`, as an unbounded number, so that no step ever wraps it (R24, R107; derived by the spec
itself). -/
def Obligations.PcAfterEveryStep : Prop :=
  ∀ (s t : State) (i : Instr), Fetches s i → step s = .next t → t.pc.toNat = pcAfter s i
end

