-- ==== Sys2Proof/Laws/Decode.lean ====
section
/-! SUPPORT. The fields of an assembled word and the assembly of a word from its fields (30_encoding.md R71, R73): what a
proof about decoding or encoding needs of bits, said once. -/

namespace Sys2Proof

@[simp] theorem nib1_encNnn (c : Nibble) (nnn : Addr12) : nib1 (encNnn c nnn) = c := by
  apply BitVec.eq_of_getLsbD_eq; intro i hi; interval_cases i <;> simp [nib1, encNnn]

@[simp] theorem fieldNnn_encNnn (c : Nibble) (nnn : Addr12) : fieldNnn (encNnn c nnn) = nnn := by
  apply BitVec.eq_of_getLsbD_eq; intro i hi; interval_cases i <;> simp [fieldNnn, encNnn]

@[simp] theorem nib1_encXkk (c x : Nibble) (kk : Byte) : nib1 (encXkk c x kk) = c := by
  apply BitVec.eq_of_getLsbD_eq; intro i hi; interval_cases i <;> simp [nib1, encXkk]

@[simp] theorem fieldX_encXkk (c x : Nibble) (kk : Byte) : fieldX (encXkk c x kk) = x := by
  apply BitVec.eq_of_getLsbD_eq; intro i hi; interval_cases i <;> simp [fieldX, nib2, encXkk]

@[simp] theorem fieldKk_encXkk (c x : Nibble) (kk : Byte) : fieldKk (encXkk c x kk) = kk := by
  apply BitVec.eq_of_getLsbD_eq; intro i hi; interval_cases i <;> simp [fieldKk, encXkk]

@[simp] theorem nib1_encXyn (c x y n : Nibble) : nib1 (encXyn c x y n) = c := by
  apply BitVec.eq_of_getLsbD_eq; intro i hi; interval_cases i <;> simp [nib1, encXyn]

@[simp] theorem fieldX_encXyn (c x y n : Nibble) : fieldX (encXyn c x y n) = x := by
  apply BitVec.eq_of_getLsbD_eq; intro i hi; interval_cases i <;> simp [fieldX, nib2, encXyn]

@[simp] theorem fieldY_encXyn (c x y n : Nibble) : fieldY (encXyn c x y n) = y := by
  apply BitVec.eq_of_getLsbD_eq; intro i hi; interval_cases i <;> simp [fieldY, nib3, encXyn]

@[simp] theorem nib4_encXyn (c x y n : Nibble) : nib4 (encXyn c x y n) = n := by
  apply BitVec.eq_of_getLsbD_eq; intro i hi; interval_cases i <;> simp [nib4, encXyn]

@[simp] theorem fieldN_encXyn (c x y n : Nibble) : fieldN (encXyn c x y n) = n := nib4_encXyn c x y n

/-- The last arm of the dispatch is class F: a nibble that is none of the first fifteen values is 0xF. -/
theorem nibble_last (n : Nibble) (h : n ≠ 0x0#4 ∧ n ≠ 0x1#4 ∧ n ≠ 0x2#4 ∧ n ≠ 0x3#4 ∧ n ≠ 0x4#4 ∧ n ≠ 0x5#4 ∧ n ≠ 0x6#4 ∧
    n ≠ 0x7#4 ∧ n ≠ 0x8#4 ∧ n ≠ 0x9#4 ∧ n ≠ 0xA#4 ∧ n ≠ 0xB#4 ∧ n ≠ 0xC#4 ∧ n ≠ 0xD#4 ∧ n ≠ 0xE#4) : n = 0xF#4 := by
  revert n; decide

/-- A word is its class and its address field (R71). -/
theorem encNnn_fields (w : Word) : encNnn (nib1 w) (fieldNnn w) = w := by
  apply BitVec.eq_of_getLsbD_eq; intro i hi; interval_cases i <;> simp [nib1, fieldNnn, encNnn]

/-- A word is its class, its `x` and its immediate byte (R71). -/
theorem encXkk_fields (w : Word) : encXkk (nib1 w) (fieldX w) (fieldKk w) = w := by
  apply BitVec.eq_of_getLsbD_eq; intro i hi; interval_cases i <;> simp [nib1, fieldX, nib2, fieldKk, encXkk]

/-- A word is its four nibbles, most significant first (R71). -/
theorem encXyn_fields (w : Word) : encXyn (nib1 w) (fieldX w) (fieldY w) (nib4 w) = w := by
  apply BitVec.eq_of_getLsbD_eq; intro i hi; interval_cases i <;> simp [nib1, fieldX, nib2, fieldY, nib3, nib4, encXyn]

/-- The big-endian word of the two bytes a word is stored as is the word (R52). -/
@[simp] theorem wordOfBytes_bytes (w : Word) : wordOfBytes (highByte w) (lowByte w) = w := by
  apply BitVec.eq_of_getLsbD_eq; intro i hi; interval_cases i <;> simp [wordOfBytes, highByte, lowByte]

@[simp] theorem highByte_wordOfBytes (hi lo : Byte) : highByte (wordOfBytes hi lo) = hi := by
  apply BitVec.eq_of_getLsbD_eq; intro i hi; interval_cases i <;> simp [wordOfBytes, highByte]

@[simp] theorem lowByte_wordOfBytes (hi lo : Byte) : lowByte (wordOfBytes hi lo) = lo := by
  apply BitVec.eq_of_getLsbD_eq; intro i hi; interval_cases i <;> simp [wordOfBytes, lowByte]

/-! The masks of the opcode table (R75) on assembled words: each keeps the fixed nibbles and clears the operands. -/

theorem mask_encNnn (c : Nibble) (nnn : Addr12) : encNnn c nnn &&& 0xF000#16 = encNnn c 0#12 := by
  apply BitVec.eq_of_getLsbD_eq; intro i hi; interval_cases i <;> simp [encNnn]

theorem mask_encXkk_class (c x : Nibble) (kk : Byte) : encXkk c x kk &&& 0xF000#16 = encXkk c 0#4 0#8 := by
  apply BitVec.eq_of_getLsbD_eq; intro i hi; interval_cases i <;> simp [encXkk]

theorem mask_encXkk_low (c x : Nibble) (kk : Byte) : encXkk c x kk &&& 0xF0FF#16 = encXkk c 0#4 kk := by
  apply BitVec.eq_of_getLsbD_eq; intro i hi; interval_cases i <;> simp [encXkk]

theorem mask_encXyn_class (c x y n : Nibble) : encXyn c x y n &&& 0xF000#16 = encXyn c 0#4 0#4 0#4 := by
  apply BitVec.eq_of_getLsbD_eq; intro i hi; interval_cases i <;> simp [encXyn]

theorem mask_encXyn_last (c x y n : Nibble) : encXyn c x y n &&& 0xF00F#16 = encXyn c 0#4 0#4 n := by
  apply BitVec.eq_of_getLsbD_eq; intro i hi; interval_cases i <;> simp [encXyn]

/-! The same masks on any word (R75, R94): what a row of the table sees of it. -/

theorem mask_word_class (w : Word) : w &&& 0xF000#16 = encNnn (nib1 w) 0#12 := by
  conv_lhs => rw [← encNnn_fields w]
  exact mask_encNnn ..

theorem mask_word_last (w : Word) : w &&& 0xF00F#16 = encXyn (nib1 w) 0#4 0#4 (nib4 w) := by
  conv_lhs => rw [← encXyn_fields w]
  exact mask_encXyn_last ..

theorem mask_word_low (w : Word) : w &&& 0xF0FF#16 = encXkk (nib1 w) 0#4 (fieldKk w) := by
  conv_lhs => rw [← encXkk_fields w]
  exact mask_encXkk_low ..

theorem mask_word_full (w : Word) : w &&& 0xFFFF#16 = w := by
  apply BitVec.eq_of_getLsbD_eq; intro i hi; interval_cases i <;> simp

end Sys2Proof
end

