-- ==== Sys2Proof/Laws/Memory.lean ====
section
/-! SUPPORT. The laws of the memory unit: a read after a write, what a write leaves alone, the canonical form kept by every
operation, and the bounds check said as arithmetic (20_memory.md R53, R56, R59). -/

namespace Sys2Proof.Machine

@[simp] theorem memRead_nil (a : Nat) : memRead [] a = memDefault a := rfl

theorem memRead_cons (c : Nat) (d : Byte) (rest : List Host.Cell) (a : Nat) :
    memRead ((c, d) :: rest) a = if a = c then d else memRead rest a := rfl

@[simp] theorem memWfFrom_nil (lo : Nat) : memWfFrom lo [] = true := rfl

theorem memWfFrom_cons (lo c : Nat) (d : Byte) (rest : List Host.Cell) :
    memWfFrom lo ((c, d) :: rest) = true ↔
      lo ≤ c ∧ c < 4096 ∧ d ≠ memDefault c ∧ memWfFrom (c + 1) rest = true := by
  simp [memWfFrom, and_assoc]

/-- A lower bound of a canonical list may be lowered. -/
theorem memWfFrom_mono {lo lo' : Nat} {m : List Host.Cell} (h : memWfFrom lo m = true) (hl : lo' ≤ lo) :
    memWfFrom lo' m = true := by
  match m with
  | [] => rfl
  | (c, d) :: rest =>
    rw [memWfFrom_cons] at h ⊢
    exact ⟨by omega, h.2⟩

/-- An address below every listed one reads as unlisted. -/
theorem memRead_below {lo : Nat} {m : List Host.Cell} (h : memWfFrom lo m = true) {a : Nat} (ha : a < lo) :
    memRead m a = memDefault a := by
  induction m generalizing lo with
  | nil => rfl
  | cons cd rest ih =>
    obtain ⟨c, d⟩ := cd
    rw [memWfFrom_cons] at h
    rw [memRead_cons, if_neg (by omega)]
    exact ih h.2.2.2 (by omega)

/-- Read after a write to the same address (R59). -/
theorem memRead_memWrite_same {lo : Nat} {m : List Host.Cell} (h : memWfFrom lo m = true) (a : Nat) (b : Byte) :
    memRead (memWrite m a b) a = b := by
  induction m generalizing lo with
  | nil =>
    unfold memWrite
    split
    · rename_i hb; simp [hb]
    · simp [memRead_cons]
  | cons cd rest ih =>
    obtain ⟨c, d⟩ := cd
    rw [memWfFrom_cons] at h
    unfold memWrite
    split
    · rename_i hac
      split
      · rename_i hb
        rw [memRead_cons, if_neg (by omega), memRead_below h.2.2.2 (by omega), hb]
      · simp [memRead_cons]
    · split
      · rename_i hac
        split
        · rename_i hb
          rw [memRead_below h.2.2.2 (by omega), hb]
        · simp [memRead_cons]
      · rw [memRead_cons, if_neg ‹_›]
        exact ih h.2.2.2

/-- A write leaves every other address alone (R53). -/
theorem memRead_memWrite_other (m : List Host.Cell) {a a' : Nat} (b : Byte) (hne : a' ≠ a) :
    memRead (memWrite m a b) a' = memRead m a' := by
  induction m with
  | nil =>
    unfold memWrite
    split
    · rfl
    · simp [memRead_cons, hne]
  | cons cd rest ih =>
    obtain ⟨c, d⟩ := cd
    unfold memWrite
    split
    · split
      · rfl
      · rw [memRead_cons, if_neg hne]
    · split
      · rename_i hac
        have hne' : a' ≠ c := fun h => hne (h.trans hac.symm)
        split
        · rw [memRead_cons, if_neg hne']
        · rw [memRead_cons, if_neg hne, memRead_cons, if_neg hne']
      · simp only [memRead_cons, ih]

/-- A write inside memory keeps the canonical form. -/
theorem memWfFrom_memWrite {lo : Nat} {m : List Host.Cell} (h : memWfFrom lo m = true) {a : Nat} (b : Byte)
    (hlo : lo ≤ a) (ha : a < 4096) : memWfFrom lo (memWrite m a b) = true := by
  induction m generalizing lo with
  | nil =>
    unfold memWrite
    split
    · rfl
    · exact (memWfFrom_cons ..).2 ⟨hlo, ha, ‹_›, rfl⟩
  | cons cd rest ih =>
    obtain ⟨c, d⟩ := cd
    have h0 := h
    rw [memWfFrom_cons] at h
    unfold memWrite
    split
    · split
      · exact h0
      · exact (memWfFrom_cons ..).2 ⟨hlo, ha, ‹_›, (memWfFrom_cons ..).2 ⟨by omega, h.2⟩⟩
    · split
      · rename_i hac
        split
        · exact memWfFrom_mono h.2.2.2 (by omega)
        · exact (memWfFrom_cons ..).2 ⟨hlo, ha, ‹_›, by rw [hac]; exact h.2.2.2⟩
      · exact (memWfFrom_cons ..).2 ⟨h.1, h.2.1, h.2.2.1, ih h.2.2.2 (by omega)⟩

theorem memWf_memWrite {m : List Host.Cell} (h : memWf m = true) {a : Nat} (b : Byte) (ha : a < 4096) :
    memWf (memWrite m a b) = true := memWfFrom_memWrite h b (Nat.zero_le a) ha

/-- A run of writes inside memory keeps the canonical form. -/
theorem memWf_memWriteList {m : List Host.Cell} (h : memWf m = true) {a : Nat} {bs : List Byte}
    (hb : a + bs.length ≤ 4096) : memWf (memWriteList m a bs) = true := by
  induction bs generalizing m a with
  | nil => exact h
  | cons b bs ih =>
    simp only [List.length_cons] at hb
    exact ih (memWf_memWrite h b (by omega)) (by omega)

/-- A run of writes leaves every address outside it alone (R53). -/
theorem memRead_memWriteList_outside (m : List Host.Cell) {a x : Nat} {bs : List Byte}
    (hx : x < a ∨ a + bs.length ≤ x) : memRead (memWriteList m a bs) x = memRead m x := by
  induction bs generalizing m a with
  | nil => rfl
  | cons b bs ih =>
    simp only [List.length_cons] at hx
    rw [memWriteList, ih _ (by omega), memRead_memWrite_other m b (by omega)]

/-- A run of writes puts its `k`-th byte at the `k`-th address (R53). -/
theorem memRead_memWriteList_inside {m : List Host.Cell} (h : memWf m = true) {a : Nat} {bs : List Byte}
    (hb : a + bs.length ≤ 4096) {k : Nat} (hk : k < bs.length) :
    memRead (memWriteList m a bs) (a + k) = bs[k] := by
  induction bs generalizing m a k with
  | nil => simp at hk
  | cons b bs ih =>
    simp only [List.length_cons] at hb hk
    have h' := memWf_memWrite h b (show a < 4096 by omega)
    cases k with
    | zero =>
      rw [memWriteList, memRead_memWriteList_outside _ (by omega)]
      exact memRead_memWrite_same h a b
    | succ k =>
      have := ih h' (a := a + 1) (by omega) (k := k) (by omega)
      rw [memWriteList]
      simpa [Nat.add_assoc, Nat.add_comm 1 k] using this

@[simp] theorem memReadList_length (m : List Host.Cell) (a n : Nat) : (memReadList m a n).length = n := by
  induction n generalizing a with
  | zero => rfl
  | succ n ih => simp [memReadList, ih]

/-- The `k`-th byte of a run of reads. -/
theorem memReadList_getElem (m : List Host.Cell) (a n k : Nat) (hk : k < (memReadList m a n).length) :
    (memReadList m a n)[k] = memRead m (a + k) := by
  induction n generalizing a k with
  | zero => simp at hk
  | succ n ih =>
    cases k with
    | zero => rfl
    | succ k => simp only [memReadList, List.getElem_cons_succ, ih]; congr 1; omega

/-- The bounds check passes exactly where the range is empty or inside memory (R55, R56). -/
theorem rangeError_none (base n : Nat) : rangeError base n = none ↔ n = 0 ∨ base + n ≤ 4096 := by
  unfold rangeError; split <;> simp_all

/-- Where the bounds check fails it gives the lowest address above 4095 (R56). -/
theorem rangeError_some (base n : Nat) (a : Word) :
    rangeError base n = some a ↔
      n ≠ 0 ∧ 4096 < base + n ∧ a = BitVec.ofNat 16 (if base < 4096 then 4096 else base) := by
  unfold rangeError
  split
  · rename_i h
    simp only [Config.memSize] at h
    exact ⟨nofun, fun e => by omega⟩
  · rename_i h
    rw [not_or] at h
    simp only [Option.some.injEq, Config.memSize] at h ⊢
    exact ⟨fun e => ⟨h.1, by omega, e.symm⟩, fun e => e.2.2.symm⟩

/-- What an image load gives outside the image is the font and zeros (R37). -/
theorem loadImage_wf {img : List Byte} (h : imageWf img = true) : memWf (loadImage img) = true := by
  simp only [imageWf, Config.progMax, decide_eq_true_eq] at h
  exact memWf_memWriteList rfl (by simp only [Config.progBase]; omega)

end Sys2Proof.Machine
end

