-- ==== Sys2Proof/Laws/State.lean ====
section
/-! SUPPORT. What each named update does to each field of the state: one lemma per field per update, so that no later proof
unfolds an update. -/

namespace Sys2Proof.Machine

variable (s : State)

@[simp] theorem setV_v (x : Nibble) (b : Byte) : (setV s x b).v = s.v.set x.toNat b x.isLt := rfl
@[simp] theorem setV_i (x : Nibble) (b : Byte) : (setV s x b).i = s.i := rfl
@[simp] theorem setV_pc (x : Nibble) (b : Byte) : (setV s x b).pc = s.pc := rfl
@[simp] theorem setV_sp (x : Nibble) (b : Byte) : (setV s x b).sp = s.sp := rfl
@[simp] theorem setV_stack (x : Nibble) (b : Byte) : (setV s x b).stack = s.stack := rfl
@[simp] theorem setV_dt (x : Nibble) (b : Byte) : (setV s x b).dt = s.dt := rfl
@[simp] theorem setV_st (x : Nibble) (b : Byte) : (setV s x b).st = s.st := rfl
@[simp] theorem setV_keys (x : Nibble) (b : Byte) : (setV s x b).keys = s.keys := rfl
@[simp] theorem setV_fb (x : Nibble) (b : Byte) : (setV s x b).fb = s.fb := rfl
@[simp] theorem setV_mem (x : Nibble) (b : Byte) : (setV s x b).mem = s.mem := rfl
@[simp] theorem setV_draws (x : Nibble) (b : Byte) : (setV s x b).draws = s.draws := rfl

@[simp] theorem advance_v : (advance s).v = s.v := rfl
@[simp] theorem advance_i : (advance s).i = s.i := rfl
@[simp] theorem advance_pc : (advance s).pc = s.pc + 2#16 := rfl
@[simp] theorem advance_sp : (advance s).sp = s.sp := rfl
@[simp] theorem advance_stack : (advance s).stack = s.stack := rfl
@[simp] theorem advance_dt : (advance s).dt = s.dt := rfl
@[simp] theorem advance_st : (advance s).st = s.st := rfl
@[simp] theorem advance_keys : (advance s).keys = s.keys := rfl
@[simp] theorem advance_fb : (advance s).fb = s.fb := rfl
@[simp] theorem advance_mem : (advance s).mem = s.mem := rfl
@[simp] theorem advance_draws : (advance s).draws = s.draws := rfl

@[simp] theorem skipIf_v (c : Bool) : (skipIf c s).v = s.v := by cases c <;> rfl
@[simp] theorem skipIf_i (c : Bool) : (skipIf c s).i = s.i := by cases c <;> rfl
@[simp] theorem skipIf_pc (c : Bool) : (skipIf c s).pc = if c then s.pc + 2#16 else s.pc := by cases c <;> rfl
@[simp] theorem skipIf_sp (c : Bool) : (skipIf c s).sp = s.sp := by cases c <;> rfl
@[simp] theorem skipIf_stack (c : Bool) : (skipIf c s).stack = s.stack := by cases c <;> rfl
@[simp] theorem skipIf_dt (c : Bool) : (skipIf c s).dt = s.dt := by cases c <;> rfl
@[simp] theorem skipIf_st (c : Bool) : (skipIf c s).st = s.st := by cases c <;> rfl
@[simp] theorem skipIf_keys (c : Bool) : (skipIf c s).keys = s.keys := by cases c <;> rfl
@[simp] theorem skipIf_fb (c : Bool) : (skipIf c s).fb = s.fb := by cases c <;> rfl
@[simp] theorem skipIf_mem (c : Bool) : (skipIf c s).mem = s.mem := by cases c <;> rfl
@[simp] theorem skipIf_draws (c : Bool) : (skipIf c s).draws = s.draws := by cases c <;> rfl

@[simp] theorem jumpTo_v (w : Word) : (jumpTo w s).v = s.v := rfl
@[simp] theorem jumpTo_i (w : Word) : (jumpTo w s).i = s.i := rfl
@[simp] theorem jumpTo_pc (w : Word) : (jumpTo w s).pc = w := rfl
@[simp] theorem jumpTo_sp (w : Word) : (jumpTo w s).sp = s.sp := rfl
@[simp] theorem jumpTo_stack (w : Word) : (jumpTo w s).stack = s.stack := rfl
@[simp] theorem jumpTo_dt (w : Word) : (jumpTo w s).dt = s.dt := rfl
@[simp] theorem jumpTo_st (w : Word) : (jumpTo w s).st = s.st := rfl
@[simp] theorem jumpTo_keys (w : Word) : (jumpTo w s).keys = s.keys := rfl
@[simp] theorem jumpTo_fb (w : Word) : (jumpTo w s).fb = s.fb := rfl
@[simp] theorem jumpTo_mem (w : Word) : (jumpTo w s).mem = s.mem := rfl
@[simp] theorem jumpTo_draws (w : Word) : (jumpTo w s).draws = s.draws := rfl

@[simp] theorem setFlag_v (c : Bool) : (setFlag s c).v = s.v.set vf.toNat (flagByte c) vf.isLt := rfl
@[simp] theorem setFlag_i (c : Bool) : (setFlag s c).i = s.i := rfl
@[simp] theorem setFlag_pc (c : Bool) : (setFlag s c).pc = s.pc := rfl
@[simp] theorem setFlag_sp (c : Bool) : (setFlag s c).sp = s.sp := rfl
@[simp] theorem setFlag_stack (c : Bool) : (setFlag s c).stack = s.stack := rfl
@[simp] theorem setFlag_dt (c : Bool) : (setFlag s c).dt = s.dt := rfl
@[simp] theorem setFlag_st (c : Bool) : (setFlag s c).st = s.st := rfl
@[simp] theorem setFlag_keys (c : Bool) : (setFlag s c).keys = s.keys := rfl
@[simp] theorem setFlag_fb (c : Bool) : (setFlag s c).fb = s.fb := rfl
@[simp] theorem setFlag_mem (c : Bool) : (setFlag s c).mem = s.mem := rfl
@[simp] theorem setFlag_draws (c : Bool) : (setFlag s c).draws = s.draws := rfl

@[simp] theorem setResultFlag_v (x : Nibble) (b : Byte) (c : Bool) : (setResultFlag s x b c).v = (s.v.set x.toNat b x.isLt).set vf.toNat (flagByte c) vf.isLt := rfl
@[simp] theorem setResultFlag_i (x : Nibble) (b : Byte) (c : Bool) : (setResultFlag s x b c).i = s.i := rfl
@[simp] theorem setResultFlag_pc (x : Nibble) (b : Byte) (c : Bool) : (setResultFlag s x b c).pc = s.pc := rfl
@[simp] theorem setResultFlag_sp (x : Nibble) (b : Byte) (c : Bool) : (setResultFlag s x b c).sp = s.sp := rfl
@[simp] theorem setResultFlag_stack (x : Nibble) (b : Byte) (c : Bool) : (setResultFlag s x b c).stack = s.stack := rfl
@[simp] theorem setResultFlag_dt (x : Nibble) (b : Byte) (c : Bool) : (setResultFlag s x b c).dt = s.dt := rfl
@[simp] theorem setResultFlag_st (x : Nibble) (b : Byte) (c : Bool) : (setResultFlag s x b c).st = s.st := rfl
@[simp] theorem setResultFlag_keys (x : Nibble) (b : Byte) (c : Bool) : (setResultFlag s x b c).keys = s.keys := rfl
@[simp] theorem setResultFlag_fb (x : Nibble) (b : Byte) (c : Bool) : (setResultFlag s x b c).fb = s.fb := rfl
@[simp] theorem setResultFlag_mem (x : Nibble) (b : Byte) (c : Bool) : (setResultFlag s x b c).mem = s.mem := rfl
@[simp] theorem setResultFlag_draws (x : Nibble) (b : Byte) (c : Bool) : (setResultFlag s x b c).draws = s.draws := rfl

@[simp] theorem setI_v (w : Word) : (setI s w).v = s.v := rfl
@[simp] theorem setI_i (w : Word) : (setI s w).i = w := rfl
@[simp] theorem setI_pc (w : Word) : (setI s w).pc = s.pc := rfl
@[simp] theorem setI_sp (w : Word) : (setI s w).sp = s.sp := rfl
@[simp] theorem setI_stack (w : Word) : (setI s w).stack = s.stack := rfl
@[simp] theorem setI_dt (w : Word) : (setI s w).dt = s.dt := rfl
@[simp] theorem setI_st (w : Word) : (setI s w).st = s.st := rfl
@[simp] theorem setI_keys (w : Word) : (setI s w).keys = s.keys := rfl
@[simp] theorem setI_fb (w : Word) : (setI s w).fb = s.fb := rfl
@[simp] theorem setI_mem (w : Word) : (setI s w).mem = s.mem := rfl
@[simp] theorem setI_draws (w : Word) : (setI s w).draws = s.draws := rfl

@[simp] theorem rndWith_v (r : Byte) (x : Nibble) (kk : Byte) : (rndWith r x kk s).v = s.v.set x.toNat (r &&& kk) x.isLt := rfl
@[simp] theorem rndWith_i (r : Byte) (x : Nibble) (kk : Byte) : (rndWith r x kk s).i = s.i := rfl
@[simp] theorem rndWith_pc (r : Byte) (x : Nibble) (kk : Byte) : (rndWith r x kk s).pc = s.pc := rfl
@[simp] theorem rndWith_sp (r : Byte) (x : Nibble) (kk : Byte) : (rndWith r x kk s).sp = s.sp := rfl
@[simp] theorem rndWith_stack (r : Byte) (x : Nibble) (kk : Byte) : (rndWith r x kk s).stack = s.stack := rfl
@[simp] theorem rndWith_dt (r : Byte) (x : Nibble) (kk : Byte) : (rndWith r x kk s).dt = s.dt := rfl
@[simp] theorem rndWith_st (r : Byte) (x : Nibble) (kk : Byte) : (rndWith r x kk s).st = s.st := rfl
@[simp] theorem rndWith_keys (r : Byte) (x : Nibble) (kk : Byte) : (rndWith r x kk s).keys = s.keys := rfl
@[simp] theorem rndWith_fb (r : Byte) (x : Nibble) (kk : Byte) : (rndWith r x kk s).fb = s.fb := rfl
@[simp] theorem rndWith_mem (r : Byte) (x : Nibble) (kk : Byte) : (rndWith r x kk s).mem = s.mem := rfl
@[simp] theorem rndWith_draws (r : Byte) (x : Nibble) (kk : Byte) : (rndWith r x kk s).draws = s.draws := rfl

@[simp] theorem tickTimers_v : (tickTimers s).v = s.v := rfl
@[simp] theorem tickTimers_i : (tickTimers s).i = s.i := rfl
@[simp] theorem tickTimers_pc : (tickTimers s).pc = s.pc := rfl
@[simp] theorem tickTimers_sp : (tickTimers s).sp = s.sp := rfl
@[simp] theorem tickTimers_stack : (tickTimers s).stack = s.stack := rfl
@[simp] theorem tickTimers_dt : (tickTimers s).dt = tick s.dt := rfl
@[simp] theorem tickTimers_st : (tickTimers s).st = tick s.st := rfl
@[simp] theorem tickTimers_keys : (tickTimers s).keys = s.keys := rfl
@[simp] theorem tickTimers_fb : (tickTimers s).fb = s.fb := rfl
@[simp] theorem tickTimers_mem : (tickTimers s).mem = s.mem := rfl
@[simp] theorem tickTimers_draws : (tickTimers s).draws = s.draws := rfl

@[simp] theorem setKey_v (k : Nibble) (p : Bool) : (setKey s k p).v = s.v := rfl
@[simp] theorem setKey_i (k : Nibble) (p : Bool) : (setKey s k p).i = s.i := rfl
@[simp] theorem setKey_pc (k : Nibble) (p : Bool) : (setKey s k p).pc = s.pc := rfl
@[simp] theorem setKey_sp (k : Nibble) (p : Bool) : (setKey s k p).sp = s.sp := rfl
@[simp] theorem setKey_stack (k : Nibble) (p : Bool) : (setKey s k p).stack = s.stack := rfl
@[simp] theorem setKey_dt (k : Nibble) (p : Bool) : (setKey s k p).dt = s.dt := rfl
@[simp] theorem setKey_st (k : Nibble) (p : Bool) : (setKey s k p).st = s.st := rfl
@[simp] theorem setKey_keys (k : Nibble) (p : Bool) : (setKey s k p).keys = s.keys.set k.toNat p k.isLt := rfl
@[simp] theorem setKey_fb (k : Nibble) (p : Bool) : (setKey s k p).fb = s.fb := rfl
@[simp] theorem setKey_mem (k : Nibble) (p : Bool) : (setKey s k p).mem = s.mem := rfl
@[simp] theorem setKey_draws (k : Nibble) (p : Bool) : (setKey s k p).draws = s.draws := rfl

end Sys2Proof.Machine
end

