-- ==== Sys2Proof/Laws/Ops.lean ====
section
/-! SUPPORT. What each shared operation can do, said once: register reads after writes, the checked accesses, the stack,
the fetch, and the inversion of a step. Later proofs cite these and do not unfold the operations. -/

namespace Sys2Proof.Machine

/-- Two register indices pick the same place of the register file exactly when they are equal. -/
theorem nibble_toNat_ne {x y : Nibble} (h : x ≠ y) : x.toNat ≠ y.toNat := fun e => h (BitVec.eq_of_toNat_eq e)

/-- `V[k]` depends on the register file alone. -/
theorem getV_congr {s t : State} (h : t.v = s.v) (k : Nibble) : getV t k = getV s k := by
  simp only [getV, h]

theorem getV_setV (s : State) (x k : Nibble) (b : Byte) :
    getV (setV s x b) k = if k = x then b else getV s k := by
  unfold getV setV
  by_cases h : k = x
  · subst h; simp
  · rw [if_neg h]
    exact Vector.getElem_set_ne x.isLt k.isLt (nibble_toNat_ne (Ne.symm h))

@[simp] theorem getV_setV_same (s : State) (x : Nibble) (b : Byte) : getV (setV s x b) x = b := by
  simp [getV_setV]

theorem getV_setFlag (s : State) (k : Nibble) (c : Bool) :
    getV (setFlag s c) k = if k = vf then flagByte c else getV s k := getV_setV s vf k _

/-- The flag is written after the result, so it is what VF holds (R25, R133). -/
theorem getV_setResultFlag (s : State) (x k : Nibble) (b : Byte) (c : Bool) :
    getV (setResultFlag s x b c) k = if k = vf then flagByte c else if k = x then b else getV s k := by
  rw [setResultFlag, getV_setFlag, getV_setV]

@[simp] theorem getV_advance (s : State) (k : Nibble) : getV (advance s) k = getV s k := rfl
@[simp] theorem getV_jumpTo (s : State) (w : Word) (k : Nibble) : getV (jumpTo w s) k = getV s k := rfl
@[simp] theorem getV_setI (s : State) (w : Word) (k : Nibble) : getV (setI s w) k = getV s k := rfl
@[simp] theorem getV_skipIf (s : State) (c : Bool) (k : Nibble) : getV (skipIf c s) k = getV s k := by
  cases c <;> rfl

theorem flagByte_zero_or_one (c : Bool) : flagByte c = 0x00#8 ∨ flagByte c = 0x01#8 := by cases c <;> simp [flagByte]

theorem flagByte_toNat (c : Bool) : (flagByte c).toNat = if c then 1 else 0 := by cases c <;> rfl

theorem keyDown_setKey (s : State) (k j : Nibble) (p : Bool) :
    keyDown (setKey s k p) j = if j = k then p else keyDown s j := by
  unfold keyDown setKey
  by_cases h : j = k
  · subst h; simp
  · rw [if_neg h]
    exact Vector.getElem_set_ne k.isLt j.isLt (nibble_toNat_ne (Ne.symm h))

@[simp] theorem finish_ok (s : State) : finish (.ok s) = .next s := rfl
@[simp] theorem finish_error (e : Fault) : finish (.error e) = .fault e := rfl
@[simp] theorem raise_eq (e : Fault) : raise e = .fault e := rfl

/-- Finishing gives a next state exactly where the operation gave one. -/
theorem finish_next {r : Except Fault State} {t : State} : finish r = .next t ↔ r = .ok t := by
  cases r <;> simp

theorem finish_fault {r : Except Fault State} {e : Fault} : finish r = .fault e ↔ r = .error e := by
  cases r <;> simp

/-- Everything a checked read can do (R56). -/
theorem readRange_cases (s : State) (base n : Nat) :
    ((n = 0 ∨ base + n ≤ 4096) ∧ readRange s base n = .ok (memReadList s.mem base n)) ∨
    (n ≠ 0 ∧ 4096 < base + n ∧ readRange s base n =
      .error (.memoryOutOfBounds (BitVec.ofNat 16 (if base < 4096 then 4096 else base)))) := by
  unfold readRange
  cases h : rangeError base n with
  | none => exact .inl ⟨(rangeError_none ..).1 h, rfl⟩
  | some a =>
    obtain ⟨h1, h2, rfl⟩ := (rangeError_some ..).1 h
    exact .inr ⟨h1, h2, rfl⟩

/-- Everything a checked write can do (R56). -/
theorem writeRange_cases (s : State) (base : Nat) (bs : List Byte) :
    ((bs.length = 0 ∨ base + bs.length ≤ 4096) ∧
      writeRange s base bs = .ok { s with mem := memWriteList s.mem base bs }) ∨
    (bs.length ≠ 0 ∧ 4096 < base + bs.length ∧ writeRange s base bs =
      .error (.memoryOutOfBounds (BitVec.ofNat 16 (if base < 4096 then 4096 else base)))) := by
  unfold writeRange
  cases h : rangeError base bs.length with
  | none => exact .inl ⟨(rangeError_none ..).1 h, rfl⟩
  | some a =>
    obtain ⟨h1, h2, rfl⟩ := (rangeError_some ..).1 h
    exact .inr ⟨h1, h2, rfl⟩

/-- A checked write that succeeds keeps the canonical form of memory. -/
theorem writeRange_wf {s t : State} {base : Nat} {bs : List Byte} (h : memWf s.mem = true)
    (hw : writeRange s base bs = .ok t) : memWf t.mem = true := by
  rcases writeRange_cases s base bs with ⟨hb, he⟩ | ⟨-, -, he⟩ <;> rw [he] at hw
  · cases hw
    rcases hb with h0 | hb
    · rw [List.length_eq_zero_iff] at h0; subst h0; exact h
    · exact memWf_memWriteList h hb
  · cases hw

/-- Everything the fetch can do (R91). -/
theorem fetchWord_cases (s : State) :
    (s.pc.toNat ≤ 4094 ∧ fetchWord s =
      .ok (wordOfBytes (memRead s.mem s.pc.toNat) (memRead s.mem (s.pc.toNat + 1)))) ∨
    (4094 < s.pc.toNat ∧ fetchWord s =
      .error (.memoryOutOfBounds (BitVec.ofNat 16 (if s.pc.toNat < 4096 then 4096 else s.pc.toNat)))) := by
  unfold fetchWord
  cases h : rangeError s.pc.toNat 2 with
  | none => exact .inl ⟨by have := (rangeError_none ..).1 h; omega, rfl⟩
  | some a =>
    obtain ⟨h1, h2, rfl⟩ := (rangeError_some ..).1 h
    exact .inr ⟨by omega, rfl⟩

/-- Everything a push can do (R102). -/
theorem pushReturn_cases (s : State) :
    (∃ h : s.sp.val < 16, pushReturn s =
      .ok { s with stack := s.stack.set s.sp.val s.pc h, sp := ⟨s.sp.val + 1, Nat.succ_lt_succ h⟩ }) ∨
    (s.sp.val = 16 ∧ pushReturn s = .error .stackOverflow) := by
  unfold pushReturn
  split
  · rename_i h; exact .inl ⟨h, rfl⟩
  · rename_i h
    refine .inr ⟨?_, rfl⟩
    have := s.sp.isLt
    simp only [Config.stackDepth] at h
    omega

/-- Everything a pop can do (R100). -/
theorem popReturn_cases (s : State) :
    (∃ _h : s.sp.val ≠ 0, popReturn s =
      .ok { s with pc := s.stack[s.sp.val - 1]'(by omega), sp := ⟨s.sp.val - 1, by omega⟩ }) ∨
    (s.sp.val = 0 ∧ popReturn s = .error .stackUnderflow) := by
  unfold popReturn
  split
  · rename_i h; exact .inr ⟨h, rfl⟩
  · rename_i h; exact .inl ⟨h, rfl⟩

/-- The lowest pressed key, where there is one (R163). -/
theorem lowestKey_some {s : State} {k : Nat} (h : lowestKey s = some k) :
    ∃ hk : k < 16, s.keys[k] = true ∧ ∀ j (hj : j < k), s.keys[j] = false := by
  unfold lowestKey at h
  rw [List.findIdx?_eq_some_iff_getElem] at h
  obtain ⟨hk, h1, h2⟩ := h
  have hk' : k < 16 := by simpa using hk
  refine ⟨hk', by simpa using h1, fun j hj => ?_⟩
  simpa using h2 j hj

/-- No key is pressed exactly where there is no lowest one (R163). -/
theorem lowestKey_none {s : State} : lowestKey s = none ↔ ∀ k (hk : k < 16), s.keys[k] = false := by
  unfold lowestKey
  rw [List.findIdx?_eq_none_iff]
  constructor
  · intro h k hk
    have := h (s.keys[k]) (by simp)
    simpa using this
  · intro h x hx
    obtain ⟨k, hk, rfl⟩ := List.getElem_of_mem hx
    have hk' : k < 16 := by simpa using hk
    simpa using h k hk'

/-- Everything a step that ends normally did: it fetched inside memory, decoded, and ran the instruction from the advanced
state (R91 to R96). -/
theorem step_next {s t : State} (h : step s = .next t) :
    s.pc.toNat ≤ 4094 ∧ ∃ i, decodeWord (wordOfBytes (memRead s.mem s.pc.toNat) (memRead s.mem (s.pc.toNat + 1))) = .ok i ∧
      exec i (advance s) = .next t := by
  unfold step at h
  rcases fetchWord_cases s with ⟨hpc, hf⟩ | ⟨-, hf⟩ <;> rw [hf] at h
  · refine ⟨hpc, ?_⟩
    simp only at h
    split at h
    · cases h
    · rename_i i hi; exact ⟨i, hi, h⟩
  · cases h

/-- Where a fetch succeeds and the word decodes, the step is the instruction run from the advanced state (R96). -/
theorem step_of_decode {s : State} {i : Instr} (hpc : s.pc.toNat ≤ 4094)
    (hd : decodeWord (wordOfBytes (memRead s.mem s.pc.toNat) (memRead s.mem (s.pc.toNat + 1))) = .ok i) :
    step s = exec i (advance s) := by
  unfold step
  rcases fetchWord_cases s with ⟨-, hf⟩ | ⟨h, -⟩
  · simp only [hf, hd]
  · omega

/-- `PC_next` as a number: the advance never wraps after a fetch inside memory (R92). -/
theorem advance_pc_toNat {s : State} (h : s.pc.toNat ≤ 4094) : (advance s).pc.toNat = s.pc.toNat + 2 := by
  simp only [advance_pc, BitVec.toNat_add, BitVec.toNat_ofNat]; omega

end Sys2Proof.Machine
end

