-- ==== Sys2Proof/Laws/Draw.lean ====
section
/-! SUPPORT. The framebuffer pixel by pixel: a read after a write, and one turn of the innermost loop of R151. -/

namespace Sys2Proof.Machine

theorem getPixel_setPixel (fb : Pixels) (row row' : Fin 32) (col col' : Fin 64) (b : Bool) :
    getPixel (setPixel fb row col b) row' col' = if row' = row ∧ col' = col then b else getPixel fb row' col' := by
  unfold getPixel setPixel
  by_cases hr : row' = row
  · subst hr
    by_cases hc : col' = col
    · subst hc; simp
    · have hc' : col.val ≠ col'.val := fun e => hc (Fin.ext e.symm)
      simp [hc, hc']
  · have hr' : row.val ≠ row'.val := fun e => hr (Fin.ext e.symm)
    simp [hr, hr']

@[simp] theorem getPixel_clearPixels (row : Fin 32) (col : Fin 64) : getPixel clearPixels row col = false := by
  simp [getPixel, clearPixels]

/-- Two framebuffers with the same pixels are the same. -/
theorem pixels_ext {a b : Pixels} (h : ∀ row col, getPixel a row col = getPixel b row col) : a = b := by
  apply Vector.ext
  intro i hi
  apply Vector.ext
  intro j hj
  exact h ⟨i, hi⟩ ⟨j, hj⟩

/-- One turn of the loop flips its pixel exactly when the sprite bit is set (R151 corner case (b)). -/
theorem getPixel_drawBit (row row' : Fin 32) (col col' : Fin 64) (bit : Bool) (acc : Pixels × Bool) :
    getPixel (drawBit row col bit acc).1 row' col' =
      (getPixel acc.1 row' col' ^^ (bit && decide (row' = row) && decide (col' = col))) := by
  cases bit
  · simp [drawBit]
  · simp only [drawBit, if_true, getPixel_setPixel]
    by_cases hr : row' = row
    · by_cases hc : col' = col
      · subst hr; subst hc; simp
      · simp [hc]
    · simp [hr]

/-- One turn of the loop is a hit exactly when the sprite bit is set and the pixel was lit (R151). -/
theorem hit_drawBit (row : Fin 32) (col : Fin 64) (bit : Bool) (acc : Pixels × Bool) :
    (drawBit row col bit acc).2 = (acc.2 || (bit && getPixel acc.1 row col)) := by
  cases bit <;> simp [drawBit]

/-- Does one sprite byte drawn at column `x0` set a bit on the column (R152, one row of the mask)? -/
def byteCovers (x0 : Nat) (b : Byte) (col : Fin 64) : Bool :=
  (List.range 8).any fun c => decide (col = wrapCol x0 c) && spriteBit b c

/-- The inner loop over columns that are all different, from any pixels: what it flips and when it hits (R151). -/
theorem drawByte_foldl (row row' : Fin 32) (x0 : Nat) (b : Byte) (col' : Fin 64) (cs : List Nat) (acc : Pixels × Bool)
    (hn : cs.Pairwise fun c d => wrapCol x0 c ≠ wrapCol x0 d) :
    getPixel (cs.foldl (fun acc c => drawBit row (wrapCol x0 c) (spriteBit b c) acc) acc).1 row' col' =
      (getPixel acc.1 row' col' ^^
        (decide (row' = row) && cs.any fun c => decide (col' = wrapCol x0 c) && spriteBit b c)) ∧
    (cs.foldl (fun acc c => drawBit row (wrapCol x0 c) (spriteBit b c) acc) acc).2 =
      (acc.2 || cs.any fun c => spriteBit b c && getPixel acc.1 row (wrapCol x0 c)) := by
  induction cs generalizing acc with
  | nil => simp
  | cons c cs ih =>
    rw [List.pairwise_cons] at hn
    simp only [List.foldl_cons, List.any_cons]
    have := ih (drawBit row (wrapCol x0 c) (spriteBit b c) acc) hn.2
    rw [this.1, this.2, getPixel_drawBit, hit_drawBit]
    constructor
    · by_cases hc : col' = wrapCol x0 c
      · have h0 : (cs.any fun c => decide (col' = wrapCol x0 c) && spriteBit b c) = false := by
          simp only [List.any_eq_false]
          intro d hd
          simp [hc, hn.1 d hd]
        rw [h0]
        simp only [hc, decide_true, Bool.and_true, Bool.true_and, Bool.or_false, Bool.and_false, Bool.xor_false]
        rw [Bool.and_comm]
      · simp [hc]
    · have h0 : (cs.any fun d => spriteBit b d &&
            getPixel (drawBit row (wrapCol x0 c) (spriteBit b c) acc).1 row (wrapCol x0 d)) =
          cs.any fun d => spriteBit b d && getPixel acc.1 row (wrapCol x0 d) := by
        rw [Bool.eq_iff_iff]
        simp only [List.any_eq_true]
        constructor <;> rintro ⟨d, hd, h⟩ <;> refine ⟨d, hd, ?_⟩ <;> have := hn.1 d hd <;>
          simp [getPixel_drawBit, Ne.symm this] at h ⊢ <;> exact h
      rw [h0, Bool.or_assoc]

/-- Eight neighbouring columns modulo 64 are all different. -/
theorem wrapCol_pairwise (x0 : Nat) : (List.range 8).Pairwise fun c d => wrapCol x0 c ≠ wrapCol x0 d := by
  rw [List.pairwise_iff_getElem]
  intro i j hi hj hij h
  simp only [List.length_range, List.getElem_range] at hi hj h
  have := congrArg Fin.val h
  simp only [wrapCol, Fin.ofNat] at this
  omega

/-- The inner loop of R151 flips, in its row, exactly the pixels its byte covers. -/
theorem getPixel_drawByte (row row' : Fin 32) (x0 : Nat) (b : Byte) (acc : Pixels × Bool) (col' : Fin 64) :
    getPixel (drawByte row x0 b acc).1 row' col' =
      (getPixel acc.1 row' col' ^^ (decide (row' = row) && byteCovers x0 b col')) :=
  (drawByte_foldl row row' x0 b col' _ acc (wrapCol_pairwise x0)).1

/-- The inner loop of R151 is a hit exactly when its byte covers a pixel that was lit. -/
theorem hit_drawByte (row : Fin 32) (x0 : Nat) (b : Byte) (acc : Pixels × Bool) :
    (drawByte row x0 b acc).2 = true ↔
      acc.2 = true ∨ ∃ col, getPixel acc.1 row col = true ∧ byteCovers x0 b col = true := by
  rw [drawByte, (drawByte_foldl row row x0 b 0 _ acc (wrapCol_pairwise x0)).2]
  simp only [Bool.or_eq_true, List.any_eq_true, byteCovers, Bool.and_eq_true, decide_eq_true_eq]
  constructor
  · rintro (h | ⟨c, hc, h1, h2⟩)
    · exact .inl h
    · exact .inr ⟨_, h2, c, hc, rfl, h1⟩
  · rintro (h | ⟨col, h, c, hc, rfl, h1⟩)
    · exact .inl h
    · exact .inr ⟨c, hc, h1, h⟩

end Sys2Proof.Machine
end

