-- ==== Sys2Proof/Laws/Exec.lean ====
section
/-! SUPPORT. What each instruction does, said once in terms of the shared operations: an equation where it always ends
normally, and all its outcomes where it can raise an error. Later proofs cite these and do not unfold the meanings. -/

namespace Sys2Proof.Machine

variable (s : State)

@[simp] theorem exec_cls : exec .cls s = .next { s with fb := clearPixels } := rfl
@[simp] theorem exec_jp (nnn : Addr12) : exec (.jp nnn) s = .next (jumpTo (zext12 nnn) s) := rfl
@[simp] theorem exec_seImm (x : Nibble) (kk : Byte) :
    exec (.seImm x kk) s = .next (skipIf (getV s x == kk) s) := rfl
@[simp] theorem exec_sneImm (x : Nibble) (kk : Byte) :
    exec (.sneImm x kk) s = .next (skipIf (getV s x != kk) s) := rfl
@[simp] theorem exec_seReg (x y : Nibble) : exec (.seReg x y) s = .next (skipIf (getV s x == getV s y) s) := rfl
@[simp] theorem exec_sneReg (x y : Nibble) : exec (.sneReg x y) s = .next (skipIf (getV s x != getV s y) s) := rfl
@[simp] theorem exec_jpV0 (nnn : Addr12) :
    exec (.jpV0 nnn) s = .next (jumpTo (zext12 nnn + zext8 (getV s v0)) s) := rfl
@[simp] theorem exec_ldImm (x : Nibble) (kk : Byte) : exec (.ldImm x kk) s = .next (setV s x kk) := rfl
@[simp] theorem exec_addImm (x : Nibble) (kk : Byte) : exec (.addImm x kk) s = .next (setV s x (getV s x + kk)) := rfl
@[simp] theorem exec_ldReg (x y : Nibble) : exec (.ldReg x y) s = .next (setV s x (getV s y)) := rfl
@[simp] theorem exec_orReg (x y : Nibble) : exec (.orReg x y) s = .next (setV s x (getV s x ||| getV s y)) := rfl
@[simp] theorem exec_andReg (x y : Nibble) : exec (.andReg x y) s = .next (setV s x (getV s x &&& getV s y)) := rfl
@[simp] theorem exec_xorReg (x y : Nibble) : exec (.xorReg x y) s = .next (setV s x (getV s x ^^^ getV s y)) := rfl
@[simp] theorem exec_addReg (x y : Nibble) : exec (.addReg x y) s =
    .next (setResultFlag s x (getV s x + getV s y) (carryOut (getV s x) (getV s y))) := rfl
@[simp] theorem exec_subReg (x y : Nibble) : exec (.subReg x y) s =
    .next (setResultFlag s x (getV s x - getV s y) (strictlyGreater (getV s x) (getV s y))) := rfl
@[simp] theorem exec_shr (x y : Nibble) : exec (.shr x y) s =
    .next (setResultFlag s x (getV s x >>> 1) (bitOutRight (getV s x))) := rfl
@[simp] theorem exec_subnReg (x y : Nibble) : exec (.subnReg x y) s =
    .next (setResultFlag s x (getV s y - getV s x) (strictlyGreater (getV s y) (getV s x))) := rfl
@[simp] theorem exec_shl (x y : Nibble) : exec (.shl x y) s =
    .next (setResultFlag s x (getV s x <<< 1) (bitOutLeft (getV s x))) := rfl
@[simp] theorem exec_rnd (x : Nibble) (kk : Byte) : exec (.rnd x kk) s =
    .next (rndWith (Config.randByte s.draws) x kk { s with draws := s.draws + 1 }) := rfl
@[simp] theorem exec_ldI (nnn : Addr12) : exec (.ldI nnn) s = .next (setI s (zext12 nnn)) := rfl
@[simp] theorem exec_addI (x : Nibble) : exec (.addI x) s = .next (setI s (s.i + zext8 (getV s x))) := rfl
@[simp] theorem exec_ldF (x : Nibble) : exec (.ldF x) s = .next (setI s (fontAddress (getV s x))) := rfl
@[simp] theorem exec_skp (x : Nibble) : exec (.skp x) s = .next (skipIf (keyDown s (keyIndex (getV s x))) s) := rfl
@[simp] theorem exec_sknp (x : Nibble) : exec (.sknp x) s = .next (skipIf (!keyDown s (keyIndex (getV s x))) s) := rfl
@[simp] theorem exec_ldVxDt (x : Nibble) : exec (.ldVxDt x) s = .next (setV s x s.dt) := rfl
@[simp] theorem exec_ldDtVx (x : Nibble) : exec (.ldDtVx x) s = .next { s with dt := getV s x } := rfl
@[simp] theorem exec_ldStVx (x : Nibble) : exec (.ldStVx x) s = .next { s with st := getV s x } := rfl

/-- Everything Fx0A can do (R163). -/
theorem exec_ldVxK_cases (x : Nibble) :
    (∃ k, lowestKey s = some k ∧ exec (.ldVxK x) s = .next (setV s x (BitVec.ofNat 8 k))) ∨
    (lowestKey s = none ∧ exec (.ldVxK x) s = .next (jumpTo (s.pc - 2#16) s)) := by
  cases h : lowestKey s with
  | none => exact .inr ⟨rfl, by simp only [exec, execLdVxK, h]⟩
  | some k => exact .inl ⟨k, rfl, by simp only [exec, execLdVxK, h]⟩

/-- Everything 2nnn can do (R102). -/
theorem exec_call_cases (nnn : Addr12) :
    (∃ h : s.sp.val < 16, exec (.call nnn) s =
      .next { s with stack := s.stack.set s.sp.val s.pc h, sp := ⟨s.sp.val + 1, Nat.succ_lt_succ h⟩, pc := zext12 nnn }) ∨
    (s.sp.val = 16 ∧ exec (.call nnn) s = .fault .stackOverflow) := by
  rcases pushReturn_cases s with ⟨h, e⟩ | ⟨h, e⟩
  · exact .inl ⟨h, by simp only [exec, execCall, e, jumpTo]⟩
  · exact .inr ⟨h, by simp only [exec, execCall, e, raise_eq]⟩

/-- Everything 00EE can do (R100). -/
theorem exec_ret_cases :
    (∃ _h : s.sp.val ≠ 0, exec .ret s =
      .next { s with pc := s.stack[s.sp.val - 1]'(by omega), sp := ⟨s.sp.val - 1, by omega⟩ }) ∨
    (s.sp.val = 0 ∧ exec .ret s = .fault .stackUnderflow) := by
  rcases popReturn_cases s with ⟨h, e⟩ | ⟨h, e⟩
  · exact .inl ⟨h, by simp only [exec, execRet, e, finish_ok]⟩
  · exact .inr ⟨h, by simp only [exec, execRet, e, finish_error]⟩

/-- The error a data access of `n` bytes at `I` raises when it does not fit (R56). -/
def dataError (s : State) : Fault :=
  .memoryOutOfBounds (BitVec.ofNat 16 (if s.i.toNat < 4096 then 4096 else s.i.toNat))

/-- Everything Fx33 can do (R144). -/
theorem exec_ldB_cases (x : Nibble) :
    (s.i.toNat + 3 ≤ 4096 ∧ exec (.ldB x) s =
      .next { s with mem := memWriteList s.mem s.i.toNat (bcdDigits (getV s x)) }) ∨
    (4096 < s.i.toNat + 3 ∧ exec (.ldB x) s = .fault (dataError s)) := by
  rcases writeRange_cases s (indexBase s) (bcdDigits (getV s x)) with ⟨h, e⟩ | ⟨-, h, e⟩
  · exact .inl ⟨by simpa [bcdDigits, indexBase] using h, by simp only [exec, execLdB, e, finish_ok]; rfl⟩
  · exact .inr ⟨h, by simp only [exec, execLdB, e, finish_error]; rfl⟩

@[simp] theorem regBytes_length (x : Nibble) : (regBytes s x).length = x.toNat + 1 := by
  have := x.isLt
  simp only [regBytes, regCount, List.length_take, Vector.length_toList]
  omega

/-- The `k`-th stored byte of Fx55 is `V[k]` (R145). -/
theorem regBytes_getElem (x k : Nibble) (h : k.toNat < (regBytes s x).length) :
    (regBytes s x)[k.toNat] = getV s k := by
  simp [regBytes, getV]

/-- Everything Fx55 can do (R145). -/
theorem exec_storeRegs_cases (x : Nibble) :
    (s.i.toNat + x.toNat ≤ 4095 ∧ exec (.storeRegs x) s =
      .next { s with mem := memWriteList s.mem s.i.toNat (regBytes s x) }) ∨
    (4095 < s.i.toNat + x.toNat ∧ exec (.storeRegs x) s = .fault (dataError s)) := by
  rcases writeRange_cases s (indexBase s) (regBytes s x) with ⟨h, e⟩ | ⟨-, h, e⟩
  · refine .inl ⟨?_, by simp only [exec, execStoreRegs, e, finish_ok]; rfl⟩
    rw [regBytes_length] at h; simp only [indexBase] at h; omega
  · refine .inr ⟨?_, by simp only [exec, execStoreRegs, e, finish_error]; rfl⟩
    rw [regBytes_length] at h; simp only [indexBase] at h; omega

/-- Register `k` after a load of the first registers (R146). -/
theorem loadBytes_getElem (v : Vector Byte 16) (bs : List Byte) (k : Nat) (hk : k < 16) :
    (loadBytes v bs)[k] = bs.getD k v[k] := by
  simp [loadBytes]

/-- Everything Fx65 can do (R146). -/
theorem exec_loadRegs_cases (x : Nibble) :
    (s.i.toNat + x.toNat ≤ 4095 ∧ exec (.loadRegs x) s =
      .next { s with v := loadBytes s.v (memReadList s.mem s.i.toNat (x.toNat + 1)) }) ∨
    (4095 < s.i.toNat + x.toNat ∧ exec (.loadRegs x) s = .fault (dataError s)) := by
  rcases readRange_cases s (indexBase s) (regCount x) with ⟨h, e⟩ | ⟨-, h, e⟩
  · refine .inl ⟨?_, by simp only [exec, execLoadRegs, e]; rfl⟩
    simp only [indexBase, regCount] at h; omega
  · refine .inr ⟨?_, by simp only [exec, execLoadRegs, e]; rfl⟩
    simp only [indexBase, regCount] at h; omega

/-- Everything Dxyn can do (R151). -/
theorem exec_drw_cases (x y n : Nibble) :
    ((n.toNat = 0 ∨ s.i.toNat + n.toNat ≤ 4096) ∧ exec (.drw x y n) s =
      .next (setFlag
        { s with fb := (drawSprite s.fb (getV s x) (getV s y) (memReadList s.mem s.i.toNat n.toNat)).1 }
        (drawSprite s.fb (getV s x) (getV s y) (memReadList s.mem s.i.toNat n.toNat)).2)) ∨
    (n.toNat ≠ 0 ∧ 4096 < s.i.toNat + n.toNat ∧ exec (.drw x y n) s = .fault (dataError s)) := by
  rcases readRange_cases s (indexBase s) n.toNat with ⟨h, e⟩ | ⟨h0, h, e⟩
  · exact .inl ⟨h, by simp only [exec, execDrw, e]; rfl⟩
  · exact .inr ⟨h0, h, by simp only [exec, execDrw, e]; rfl⟩

/-- Everything any instruction can do: end normally, or raise the one error that is its own (R98). -/
theorem exec_outcome (i : Instr) :
    (∃ t, exec i s = .next t) ∨ ((∃ nnn, i = .call nnn) ∧ s.sp.val = 16 ∧ exec i s = .fault .stackOverflow) ∨
    (i = .ret ∧ s.sp.val = 0 ∧ exec i s = .fault .stackUnderflow) ∨
    (accessLength i ≠ 0 ∧ 4096 < s.i.toNat + accessLength i ∧ exec i s = .fault (dataError s)) := by
  cases i
  case ret => rcases exec_ret_cases s with ⟨h, e⟩ | ⟨h, e⟩ <;> simp [e, h]
  case call n => rcases exec_call_cases s n with ⟨h, e⟩ | ⟨h, e⟩ <;> simp [e, h]
  case drw x y n => rcases exec_drw_cases s x y n with ⟨h, e⟩ | ⟨h, h', e⟩ <;> simp [e]; simp [accessLength]; omega
  case ldB x => rcases exec_ldB_cases s x with ⟨h, e⟩ | ⟨h, e⟩ <;> simp [e]; simp [accessLength]; omega
  case storeRegs x => rcases exec_storeRegs_cases s x with ⟨h, e⟩ | ⟨h, e⟩ <;> simp [e]; simp [accessLength]; omega
  case loadRegs x => rcases exec_loadRegs_cases s x with ⟨h, e⟩ | ⟨h, e⟩ <;> simp [e]; simp [accessLength]; omega
  case ldVxK x => rcases exec_ldVxK_cases s x with ⟨k, h, e⟩ | ⟨h, e⟩ <;> simp [e]
  all_goals exact .inl ⟨_, rfl⟩

/-- An instruction that ends normally had its whole access inside memory (R56). -/
theorem exec_next_fits {i : Instr} {s t : State} (h : exec i s = .next t) :
    accessLength i = 0 ∨ s.i.toNat + accessLength i ≤ 4096 := by
  cases i
  case drw x y n =>
    rcases exec_drw_cases s x y n with ⟨h1, e⟩ | ⟨h1, h', e⟩ <;> simp [e] at h
    simpa [accessLength] using h1
  case ldB x =>
    rcases exec_ldB_cases s x with ⟨h1, e⟩ | ⟨h1, e⟩ <;> simp [e] at h
    simp [accessLength]; omega
  case storeRegs x =>
    rcases exec_storeRegs_cases s x with ⟨h1, e⟩ | ⟨h1, e⟩ <;> simp [e] at h
    simp [accessLength]; omega
  case loadRegs x =>
    rcases exec_loadRegs_cases s x with ⟨h1, e⟩ | ⟨h1, e⟩ <;> simp [e] at h
    simp [accessLength]; omega
  all_goals exact .inl rfl

end Sys2Proof.Machine
end

