-- ==== Sys2Proof/Laws/PerInstr.lean ====
section
/-! SUPPORT. The families of statements made per instruction: for each, `Statement` and one lemma per constructor of `Instr`. -/

namespace Sys2Proof.Laws.EncodeSelectsRow

/-- The instruction's word selects the row of the opcode table (30_encoding.md R75) that bears its mnemonic. -/
def Statement (i : Instr) : Prop :=
  ∃ r ∈ opcodeTable, r.mnemonic = i.mnemonic ∧ r.selects (encode i) = true

/-- A row given by its mnemonic, pattern and mask is the instruction's if the mask takes the word to the pattern. -/
theorem of_row {i : Instr} {p m : Word} (hr : ⟨i.mnemonic, p, m⟩ ∈ opcodeTable) (hm : encode i &&& m = p) :
    Statement i :=
  ⟨_, hr, rfl, by simp only [OpcodeRow.selects, hm, beq_self_eq_true]⟩

theorem cls : Statement (.cls) :=
  of_row (p := 0x00E0#16) (m := 0xFFFF#16) (by simp [opcodeTable, opcodeTableLow, opcodeTableHigh, Instr.mnemonic])
    (rfl)

theorem ret : Statement (.ret) :=
  of_row (p := 0x00EE#16) (m := 0xFFFF#16) (by simp [opcodeTable, opcodeTableLow, opcodeTableHigh, Instr.mnemonic])
    (rfl)

theorem jp (nnn : Addr12) : Statement (.jp nnn) :=
  of_row (p := 0x1000#16) (m := 0xF000#16) (by simp [opcodeTable, opcodeTableLow, opcodeTableHigh, Instr.mnemonic])
    (mask_encNnn _ nnn)

theorem call (nnn : Addr12) : Statement (.call nnn) :=
  of_row (p := 0x2000#16) (m := 0xF000#16) (by simp [opcodeTable, opcodeTableLow, opcodeTableHigh, Instr.mnemonic])
    (mask_encNnn _ nnn)

theorem seImm (x : Nibble) (kk : Byte) : Statement (.seImm x kk) :=
  of_row (p := 0x3000#16) (m := 0xF000#16) (by simp [opcodeTable, opcodeTableLow, opcodeTableHigh, Instr.mnemonic])
    (mask_encXkk_class _ x kk)

theorem sneImm (x : Nibble) (kk : Byte) : Statement (.sneImm x kk) :=
  of_row (p := 0x4000#16) (m := 0xF000#16) (by simp [opcodeTable, opcodeTableLow, opcodeTableHigh, Instr.mnemonic])
    (mask_encXkk_class _ x kk)

theorem seReg (x y : Nibble) : Statement (.seReg x y) :=
  of_row (p := 0x5000#16) (m := 0xF00F#16) (by simp [opcodeTable, opcodeTableLow, opcodeTableHigh, Instr.mnemonic])
    (mask_encXyn_last _ x y _)

theorem ldImm (x : Nibble) (kk : Byte) : Statement (.ldImm x kk) :=
  of_row (p := 0x6000#16) (m := 0xF000#16) (by simp [opcodeTable, opcodeTableLow, opcodeTableHigh, Instr.mnemonic])
    (mask_encXkk_class _ x kk)

theorem addImm (x : Nibble) (kk : Byte) : Statement (.addImm x kk) :=
  of_row (p := 0x7000#16) (m := 0xF000#16) (by simp [opcodeTable, opcodeTableLow, opcodeTableHigh, Instr.mnemonic])
    (mask_encXkk_class _ x kk)

theorem ldReg (x y : Nibble) : Statement (.ldReg x y) :=
  of_row (p := 0x8000#16) (m := 0xF00F#16) (by simp [opcodeTable, opcodeTableLow, opcodeTableHigh, Instr.mnemonic])
    (mask_encXyn_last _ x y _)

theorem orReg (x y : Nibble) : Statement (.orReg x y) :=
  of_row (p := 0x8001#16) (m := 0xF00F#16) (by simp [opcodeTable, opcodeTableLow, opcodeTableHigh, Instr.mnemonic])
    (mask_encXyn_last _ x y _)

theorem andReg (x y : Nibble) : Statement (.andReg x y) :=
  of_row (p := 0x8002#16) (m := 0xF00F#16) (by simp [opcodeTable, opcodeTableLow, opcodeTableHigh, Instr.mnemonic])
    (mask_encXyn_last _ x y _)

theorem xorReg (x y : Nibble) : Statement (.xorReg x y) :=
  of_row (p := 0x8003#16) (m := 0xF00F#16) (by simp [opcodeTable, opcodeTableLow, opcodeTableHigh, Instr.mnemonic])
    (mask_encXyn_last _ x y _)

theorem addReg (x y : Nibble) : Statement (.addReg x y) :=
  of_row (p := 0x8004#16) (m := 0xF00F#16) (by simp [opcodeTable, opcodeTableLow, opcodeTableHigh, Instr.mnemonic])
    (mask_encXyn_last _ x y _)

theorem subReg (x y : Nibble) : Statement (.subReg x y) :=
  of_row (p := 0x8005#16) (m := 0xF00F#16) (by simp [opcodeTable, opcodeTableLow, opcodeTableHigh, Instr.mnemonic])
    (mask_encXyn_last _ x y _)

theorem shr (x y : Nibble) : Statement (.shr x y) :=
  of_row (p := 0x8006#16) (m := 0xF00F#16) (by simp [opcodeTable, opcodeTableLow, opcodeTableHigh, Instr.mnemonic])
    (mask_encXyn_last _ x y _)

theorem subnReg (x y : Nibble) : Statement (.subnReg x y) :=
  of_row (p := 0x8007#16) (m := 0xF00F#16) (by simp [opcodeTable, opcodeTableLow, opcodeTableHigh, Instr.mnemonic])
    (mask_encXyn_last _ x y _)

theorem shl (x y : Nibble) : Statement (.shl x y) :=
  of_row (p := 0x800E#16) (m := 0xF00F#16) (by simp [opcodeTable, opcodeTableLow, opcodeTableHigh, Instr.mnemonic])
    (mask_encXyn_last _ x y _)

theorem sneReg (x y : Nibble) : Statement (.sneReg x y) :=
  of_row (p := 0x9000#16) (m := 0xF00F#16) (by simp [opcodeTable, opcodeTableLow, opcodeTableHigh, Instr.mnemonic])
    (mask_encXyn_last _ x y _)

theorem ldI (nnn : Addr12) : Statement (.ldI nnn) :=
  of_row (p := 0xA000#16) (m := 0xF000#16) (by simp [opcodeTable, opcodeTableLow, opcodeTableHigh, Instr.mnemonic])
    (mask_encNnn _ nnn)

theorem jpV0 (nnn : Addr12) : Statement (.jpV0 nnn) :=
  of_row (p := 0xB000#16) (m := 0xF000#16) (by simp [opcodeTable, opcodeTableLow, opcodeTableHigh, Instr.mnemonic])
    (mask_encNnn _ nnn)

theorem rnd (x : Nibble) (kk : Byte) : Statement (.rnd x kk) :=
  of_row (p := 0xC000#16) (m := 0xF000#16) (by simp [opcodeTable, opcodeTableLow, opcodeTableHigh, Instr.mnemonic])
    (mask_encXkk_class _ x kk)

theorem drw (x y n : Nibble) : Statement (.drw x y n) :=
  of_row (p := 0xD000#16) (m := 0xF000#16) (by simp [opcodeTable, opcodeTableLow, opcodeTableHigh, Instr.mnemonic])
    (mask_encXyn_class _ x y n)

theorem skp (x : Nibble) : Statement (.skp x) :=
  of_row (p := 0xE09E#16) (m := 0xF0FF#16) (by simp [opcodeTable, opcodeTableLow, opcodeTableHigh, Instr.mnemonic])
    (mask_encXkk_low _ x _)

theorem sknp (x : Nibble) : Statement (.sknp x) :=
  of_row (p := 0xE0A1#16) (m := 0xF0FF#16) (by simp [opcodeTable, opcodeTableLow, opcodeTableHigh, Instr.mnemonic])
    (mask_encXkk_low _ x _)

theorem ldVxDt (x : Nibble) : Statement (.ldVxDt x) :=
  of_row (p := 0xF007#16) (m := 0xF0FF#16) (by simp [opcodeTable, opcodeTableLow, opcodeTableHigh, Instr.mnemonic])
    (mask_encXkk_low _ x _)

theorem ldVxK (x : Nibble) : Statement (.ldVxK x) :=
  of_row (p := 0xF00A#16) (m := 0xF0FF#16) (by simp [opcodeTable, opcodeTableLow, opcodeTableHigh, Instr.mnemonic])
    (mask_encXkk_low _ x _)

theorem ldDtVx (x : Nibble) : Statement (.ldDtVx x) :=
  of_row (p := 0xF015#16) (m := 0xF0FF#16) (by simp [opcodeTable, opcodeTableLow, opcodeTableHigh, Instr.mnemonic])
    (mask_encXkk_low _ x _)

theorem ldStVx (x : Nibble) : Statement (.ldStVx x) :=
  of_row (p := 0xF018#16) (m := 0xF0FF#16) (by simp [opcodeTable, opcodeTableLow, opcodeTableHigh, Instr.mnemonic])
    (mask_encXkk_low _ x _)

theorem addI (x : Nibble) : Statement (.addI x) :=
  of_row (p := 0xF01E#16) (m := 0xF0FF#16) (by simp [opcodeTable, opcodeTableLow, opcodeTableHigh, Instr.mnemonic])
    (mask_encXkk_low _ x _)

theorem ldF (x : Nibble) : Statement (.ldF x) :=
  of_row (p := 0xF029#16) (m := 0xF0FF#16) (by simp [opcodeTable, opcodeTableLow, opcodeTableHigh, Instr.mnemonic])
    (mask_encXkk_low _ x _)

theorem ldB (x : Nibble) : Statement (.ldB x) :=
  of_row (p := 0xF033#16) (m := 0xF0FF#16) (by simp [opcodeTable, opcodeTableLow, opcodeTableHigh, Instr.mnemonic])
    (mask_encXkk_low _ x _)

theorem storeRegs (x : Nibble) : Statement (.storeRegs x) :=
  of_row (p := 0xF055#16) (m := 0xF0FF#16) (by simp [opcodeTable, opcodeTableLow, opcodeTableHigh, Instr.mnemonic])
    (mask_encXkk_low _ x _)

theorem loadRegs (x : Nibble) : Statement (.loadRegs x) :=
  of_row (p := 0xF065#16) (m := 0xF0FF#16) (by simp [opcodeTable, opcodeTableLow, opcodeTableHigh, Instr.mnemonic])
    (mask_encXkk_low _ x _)

end Sys2Proof.Laws.EncodeSelectsRow
end

