-- ==== Sys2Proof/Tests/Slice0.lean ====
section
/-! SUPPORT. The model's own tests. Every expected value comes from spec/: the decode vectors and the step vectors of
95_test_vectors.md (the comment names the vector), 30_encoding.md R76 for the ill-formed words. The witnesses at the end show, for each
statement with hypotheses, a state and operands that meet them, at the edges of their ranges. -/

namespace Sys2Proof.Tests

open Sys2Proof Sys2Proof.Machine

/-- The state after `Reset` with some registers set. -/
def regs (l : List (Nibble × Byte)) : State := l.foldl (fun s p => setV s p.1 p.2) State.reset

/-- A state with some bytes of memory set from an address on. -/
def bytesAt (s : State) (a : Nat) (bs : List Byte) : State := { s with mem := memWriteList s.mem a bs }

/-- One step that runs the word, placed at `PC`. -/
def run (s : State) (w : Nat) : Host.Outcome State Fault Refusal := step (s.withFetchWord 16 w)

/-- The outcome is a next state of which the check holds. -/
def ends (o : Host.Outcome State Fault Refusal) (p : State → Bool) : Bool :=
  match o with
  | .next t => p t
  | .fault _ => false
  | .refused _ => false

/-- The outcome is exactly the error. -/
def fails (o : Host.Outcome State Fault Refusal) (e : Fault) : Bool :=
  match o with
  | .next _ => false
  | .fault e' => decide (e' = e)
  | .refused _ => false

/-! ## WellFormed: what each check refuses (R76, R201) -/

theorem test_wf_class0 : wordWf 0x0FFF#16 = false ∧ wordWf 0x00E1#16 = false ∧ wordWf 0x0000#16 = false := by decide
theorem test_wf_class5 : wordWf 0x5121#16 = false ∧ wordWf 0x5120#16 = true := by decide
theorem test_wf_class8 : wordWf 0x8018#16 = false ∧ wordWf 0x801F#16 = false ∧ wordWf 0x801E#16 = true := by decide
theorem test_wf_class9 : wordWf 0x9121#16 = false ∧ wordWf 0x9120#16 = true := by decide
theorem test_wf_classE : wordWf 0xE29F#16 = false ∧ wordWf 0xE09D#16 = false ∧ wordWf 0xE000#16 = false := by decide
theorem test_wf_classF : wordWf 0xFFFF#16 = false ∧ wordWf 0xF50B#16 = false ∧ wordWf 0xF000#16 = false := by decide
theorem test_wf_image : imageWf (List.replicate 3585 0x00#8) = false ∧ imageWf (List.replicate 3584 0x00#8) = true := by
  unfold imageWf
  rw [List.length_replicate, List.length_replicate]
  decide
theorem test_wf_mem : memWf [(0x300, 0x00#8)] = false ∧ memWf [(0x301, 0x01#8), (0x300, 0x01#8)] = false ∧
    memWf [(0x1000, 0x01#8)] = false ∧ memWf [(0x000, 0xF0#8)] = false ∧ memWf [(0x300, 0x01#8), (0xFFF, 0x01#8)] = true := by
  decide

/-! ## Decoding: Part 2 of 95_test_vectors.md, one word of each row -/

theorem test_decode_cls : decodeWord 0x00E0#16 = .ok (.cls) := by decide
theorem test_decode_ret : decodeWord 0x00EE#16 = .ok (.ret) := by decide
theorem test_decode_jp : decodeWord 0x1ABC#16 = .ok (.jp 0xABC#12) := by decide
theorem test_decode_call : decodeWord 0x2F00#16 = .ok (.call 0xF00#12) := by decide
theorem test_decode_seImm : decodeWord 0x3A7F#16 = .ok (.seImm 10#4 0x7F#8) := by decide
theorem test_decode_sneImm : decodeWord 0x4B00#16 = .ok (.sneImm 11#4 0x00#8) := by decide
theorem test_decode_seReg : decodeWord 0x5CD0#16 = .ok (.seReg 12#4 13#4) := by decide
theorem test_decode_ldImm : decodeWord 0x6005#16 = .ok (.ldImm 0#4 0x05#8) := by decide
theorem test_decode_addImm : decodeWord 0x7EFF#16 = .ok (.addImm 14#4 0xFF#8) := by decide
theorem test_decode_ldReg : decodeWord 0x8120#16 = .ok (.ldReg 1#4 2#4) := by decide
theorem test_decode_orReg : decodeWord 0x8341#16 = .ok (.orReg 3#4 4#4) := by decide
theorem test_decode_andReg : decodeWord 0x8562#16 = .ok (.andReg 5#4 6#4) := by decide
theorem test_decode_xorReg : decodeWord 0x8783#16 = .ok (.xorReg 7#4 8#4) := by decide
theorem test_decode_addReg : decodeWord 0x8014#16 = .ok (.addReg 0#4 1#4) := by decide
theorem test_decode_subReg : decodeWord 0x89A5#16 = .ok (.subReg 9#4 10#4) := by decide
theorem test_decode_shr : decodeWord 0x8BC6#16 = .ok (.shr 11#4 12#4) := by decide
theorem test_decode_subnReg : decodeWord 0x8DE7#16 = .ok (.subnReg 13#4 14#4) := by decide
theorem test_decode_shl : decodeWord 0x8F0E#16 = .ok (.shl 15#4 0#4) := by decide
theorem test_decode_sneReg : decodeWord 0x9120#16 = .ok (.sneReg 1#4 2#4) := by decide
theorem test_decode_ldI : decodeWord 0xA2F0#16 = .ok (.ldI 0x2F0#12) := by decide
theorem test_decode_jpV0 : decodeWord 0xB300#16 = .ok (.jpV0 0x300#12) := by decide
theorem test_decode_rnd : decodeWord 0xC30F#16 = .ok (.rnd 3#4 0x0F#8) := by decide
theorem test_decode_drw : decodeWord 0xD345#16 = .ok (.drw 3#4 4#4 5#4) := by decide
theorem test_decode_skp : decodeWord 0xE29E#16 = .ok (.skp 2#4) := by decide
theorem test_decode_sknp : decodeWord 0xE2A1#16 = .ok (.sknp 2#4) := by decide
theorem test_decode_ldVxDt : decodeWord 0xF307#16 = .ok (.ldVxDt 3#4) := by decide
theorem test_decode_ldVxK : decodeWord 0xF50A#16 = .ok (.ldVxK 5#4) := by decide
theorem test_decode_ldDtVx : decodeWord 0xF315#16 = .ok (.ldDtVx 3#4) := by decide
theorem test_decode_ldStVx : decodeWord 0xF318#16 = .ok (.ldStVx 3#4) := by decide
theorem test_decode_addI : decodeWord 0xF21E#16 = .ok (.addI 2#4) := by decide
theorem test_decode_ldF : decodeWord 0xF029#16 = .ok (.ldF 0#4) := by decide
theorem test_decode_ldB : decodeWord 0xF533#16 = .ok (.ldB 5#4) := by decide
theorem test_decode_storeRegs : decodeWord 0xF355#16 = .ok (.storeRegs 3#4) := by decide
theorem test_decode_loadRegs : decodeWord 0xFF65#16 = .ok (.loadRegs 15#4) := by decide
theorem test_decode_bytes : decode [0xD3#8, 0x45#8, 0xAA#8] = .ok (.drw 3#4 4#4 5#4, [0xAA#8]) := by decide
theorem test_decode_truncated : decode [0xD3#8] = .error .truncated := by decide
theorem test_decode_table_word : decodeTableWord 16 0x8BC6 = some (.shr 11#4 12#4) ∧ decodeTableWord 16 0x0FFF = none := by
  decide

/-! ## One step: Parts 3 and 4 of 95_test_vectors.md -/

-- T-DRW-13
theorem test_cls : ends (run { regs [(15#4, 0x55#8)] with fb := setPixel (setPixel clearPixels 0 0 true) 31 63 true } 0x00E0)
    (fun t => !getPixel t.fb 0 0 && !getPixel t.fb 31 63 && getV t 15#4 == 0x55#8 && t.pc == 0x202#16) = true := by decide
-- T-CTL-7
theorem test_ret : ends (run { State.reset with pc := 0x300#16, sp := 1, stack := State.reset.stack.set 0 0x202#16 } 0x00EE)
    (fun t => t.pc == 0x202#16 && t.sp == 0 && t.stack[0] == 0x202#16) = true := by decide
-- T-CTL-8
theorem test_ret_empty : fails (run State.reset 0x00EE) .stackUnderflow = true := by decide
-- T-CTL-1
theorem test_jp : ends (run State.reset 0x1234) (fun t => t.pc == 0x234#16) = true := by decide
-- T-CTL-5
theorem test_call : ends (run { State.reset with sp := 15 } 0x2300)
    (fun t => t.pc == 0x300#16 && t.sp == 16 && t.stack[15] == 0x202#16) = true := by decide
-- T-CTL-6
theorem test_call_full : fails (run { State.reset with sp := 16 } 0x2300) .stackOverflow = true := by decide
-- T-CTL-9, T-CTL-10
theorem test_seImm : ends (run (regs [(3#4, 0x42#8)]) 0x3342) (fun t => t.pc == 0x204#16) = true := by decide
theorem test_seImm_differs : ends (run (regs [(3#4, 0x41#8)]) 0x3342) (fun t => t.pc == 0x202#16) = true := by decide
-- T-CTL-11, T-CTL-12
theorem test_sneImm : ends (run (regs [(3#4, 0x42#8)]) 0x4342) (fun t => t.pc == 0x202#16) = true := by decide
theorem test_sneImm_differs : ends (run (regs [(3#4, 0x42#8)]) 0x4300) (fun t => t.pc == 0x204#16) = true := by decide
-- T-CTL-13, T-CTL-14
theorem test_seReg : ends (run (regs [(1#4, 0x07#8), (2#4, 0x07#8)]) 0x5120) (fun t => t.pc == 0x204#16) = true := by decide
theorem test_seReg_differs : ends (run (regs [(1#4, 0x07#8), (2#4, 0x08#8)]) 0x5120) (fun t => t.pc == 0x202#16) = true := by
  decide
-- T-CTL-16, T-CTL-18
theorem test_sneReg : ends (run (regs [(1#4, 0x07#8), (2#4, 0x08#8)]) 0x9120) (fun t => t.pc == 0x204#16) = true := by decide
theorem test_sneReg_same : ends (run (regs [(1#4, 0x99#8)]) 0x9110) (fun t => t.pc == 0x202#16) = true := by decide
-- T-CTL-20
theorem test_jpV0 : ends (run (regs [(0#4, 0xFF#8)]) 0xBFFF)
    (fun t => t.pc == 0x10FE#16 && fails (step t) (.memoryOutOfBounds 0x10FE#16)) = true := by decide
-- T-ALU-1
theorem test_ldImm : ends (run State.reset 0x6AFF) (fun t => getV t 10#4 == 0xFF#8 && t.pc == 0x202#16) = true := by decide
-- T-ALU-3, T-ALU-5
theorem test_addImm : ends (run (regs [(2#4, 0xF0#8), (15#4, 0x55#8)]) 0x7220)
    (fun t => getV t 2#4 == 0x10#8 && getV t 15#4 == 0x55#8) = true := by decide
theorem test_addImm_vf : ends (run (regs [(15#4, 0xFF#8)]) 0x7F01) (fun t => getV t 15#4 == 0x00#8) = true := by decide
-- T-ALU-6 to T-ALU-9
theorem test_ldReg : ends (run (regs [(1#4, 0x3C#8)]) 0x8010) (fun t => getV t 0#4 == 0x3C#8) = true := by decide
theorem test_orReg : ends (run (regs [(0#4, 0x0F#8), (1#4, 0xF0#8), (15#4, 0x55#8)]) 0x8011)
    (fun t => getV t 0#4 == 0xFF#8 && getV t 15#4 == 0x55#8) = true := by decide
theorem test_andReg : ends (run (regs [(0#4, 0x3C#8), (1#4, 0x0F#8), (15#4, 0x55#8)]) 0x8012)
    (fun t => getV t 0#4 == 0x0C#8 && getV t 15#4 == 0x55#8) = true := by decide
theorem test_xorReg : ends (run (regs [(0#4, 0xFF#8), (1#4, 0x0F#8), (15#4, 0x55#8)]) 0x8013)
    (fun t => getV t 0#4 == 0xF0#8 && getV t 15#4 == 0x55#8) = true := by decide
-- T-ALU-13, T-ALU-16
theorem test_addReg : ends (run (regs [(0#4, 0x80#8), (1#4, 0x7F#8), (15#4, 0x01#8)]) 0x8014)
    (fun t => getV t 0#4 == 0xFF#8 && getV t 15#4 == 0x00#8) = true := by decide
theorem test_addReg_vf : ends (run (regs [(1#4, 0x01#8), (15#4, 0xFF#8)]) 0x8F14) (fun t => getV t 15#4 == 0x01#8) = true := by
  decide
-- T-ALU-23, T-ALU-29
theorem test_subReg_equal : ends (run (regs [(0#4, 0x07#8), (1#4, 0x07#8), (15#4, 0x01#8)]) 0x8015)
    (fun t => getV t 0#4 == 0x00#8 && getV t 15#4 == 0x00#8) = true := by decide
theorem test_subReg_vf : ends (run (regs [(0#4, 0x05#8), (15#4, 0x02#8)]) 0x80F5)
    (fun t => getV t 0#4 == 0x03#8 && getV t 15#4 == 0x01#8) = true := by decide
-- T-ALU-34, T-ALU-38
theorem test_shr : ends (run (regs [(0#4, 0x03#8), (1#4, 0xAA#8)]) 0x8016)
    (fun t => getV t 0#4 == 0x01#8 && getV t 15#4 == 0x01#8 && getV t 1#4 == 0xAA#8) = true := by decide
theorem test_shr_vf : ends (run (regs [(15#4, 0x02#8)]) 0x8F16) (fun t => getV t 15#4 == 0x00#8) = true := by decide
-- T-ALU-31, T-ALU-33
theorem test_subnReg : ends (run (regs [(0#4, 0x05#8), (1#4, 0x03#8), (15#4, 0x01#8)]) 0x8017)
    (fun t => getV t 0#4 == 0xFE#8 && getV t 15#4 == 0x00#8) = true := by decide
theorem test_subnReg_vf : ends (run (regs [(1#4, 0x09#8), (15#4, 0x02#8)]) 0x8F17) (fun t => getV t 15#4 == 0x01#8) = true := by
  decide
-- T-ALU-39, T-ALU-43
theorem test_shl : ends (run (regs [(0#4, 0x81#8), (1#4, 0xAA#8)]) 0x801E)
    (fun t => getV t 0#4 == 0x02#8 && getV t 15#4 == 0x01#8 && getV t 1#4 == 0xAA#8) = true := by decide
theorem test_shl_vf : ends (run (regs [(15#4, 0x7F#8)]) 0x8F1E) (fun t => getV t 15#4 == 0x00#8) = true := by decide
-- T-ALU-44: the random byte of the step is 0xA7
theorem test_rnd : getV (rndWith 0xA7#8 3#4 0x0F#8 State.reset) 3#4 = 0x07#8 := by decide
theorem test_rnd_step : ends (run State.reset 0xC30F) (fun t => t.draws == 1 && t.pc == 0x202#16) = true := by decide
-- T-MEM-1
theorem test_ldI : ends (run State.reset 0xA2F0) (fun t => t.i == 0x2F0#16) = true := by decide
-- T-MEM-4, T-MEM-5
theorem test_addI_wraps : ends (run { regs [(2#4, 0x01#8), (15#4, 0x55#8)] with i := 0xFFFF#16 } 0xF21E)
    (fun t => t.i == 0x0000#16 && getV t 15#4 == 0x55#8) = true := by decide
theorem test_addI_vf : ends (run { regs [(15#4, 0x02#8)] with i := 0x100#16 } 0xFF1E) (fun t => t.i == 0x102#16) = true := by
  decide
-- T-MEM-6, T-MEM-8
theorem test_ldF : ends (run (regs [(0#4, 0x0A#8)]) 0xF029) (fun t => t.i == 0x32#16) = true := by decide
theorem test_ldF_unmasked : ends (run (regs [(0#4, 0xFF#8)]) 0xF029) (fun t => t.i == 0x4FB#16) = true := by decide
-- T-MEM-14, T-MEM-15
theorem test_ldB : ends (run { regs [(5#4, 0x7B#8)] with i := 0xFFD#16 } 0xF533)
    (fun t => memRead t.mem 0xFFD == 0x01#8 && memRead t.mem 0xFFE == 0x02#8 && memRead t.mem 0xFFF == 0x03#8) = true := by
  decide
theorem test_ldB_end : fails (run { regs [(5#4, 0x7B#8)] with i := 0xFFE#16 } 0xF533) (.memoryOutOfBounds 0x1000#16) = true := by
  decide
-- T-MEM-18, T-MEM-22
theorem test_storeRegs : ends (run { regs [(0#4, 1#8), (1#4, 2#8), (2#4, 3#8), (3#4, 4#8), (4#4, 5#8)] with i := 0x500#16 } 0xF355)
    (fun t => memRead t.mem 0x500 == 1#8 && memRead t.mem 0x503 == 4#8 && memRead t.mem 0x504 == 0#8 && t.i == 0x500#16) = true := by
  decide
theorem test_storeRegs_end : fails (run { regs [(0#4, 1#8)] with i := 0xFFFF#16 } 0xF355) (.memoryOutOfBounds 0xFFFF#16) = true := by
  decide
-- T-MEM-24, T-MEM-27
theorem test_loadRegs : ends (run { bytesAt (regs [(4#4, 0x99#8)]) 0x500 [1#8, 2#8, 3#8, 4#8, 5#8] with i := 0x500#16 } 0xF365)
    (fun t => getV t 0#4 == 1#8 && getV t 3#4 == 4#8 && getV t 4#4 == 0x99#8 && t.i == 0x500#16) = true := by decide
theorem test_loadRegs_end : fails (run { State.reset with i := 0xFFF#16 } 0xF165) (.memoryOutOfBounds 0x1000#16) = true := by
  decide
-- T-DRW-3, T-DRW-7
theorem test_drw : ends (run { bytesAt State.reset 0x300 [0xC0#8] with i := 0x300#16, fb := setPixel clearPixels 0 0 true } 0xD011)
    (fun t => !getPixel t.fb 0 0 && getPixel t.fb 0 1 && !getPixel t.fb 0 2 && getV t 15#4 == 1#8) = true := by decide
theorem test_drw_wraps : ends (run { bytesAt (regs [(0#4, 0xFF#8), (1#4, 0xFF#8)]) 0x300 [0xC0#8] with i := 0x300#16 } 0xD011)
    (fun t => getPixel t.fb 31 63 && getPixel t.fb 31 0 && !getPixel t.fb 31 1 && getV t 15#4 == 0#8) = true := by decide
-- T-KEY-3, T-KEY-2
theorem test_skp : ends (run (setKey (regs [(2#4, 0x1A#8)]) 10#4 true) 0xE29E) (fun t => t.pc == 0x204#16) = true := by decide
theorem test_skp_up : ends (run (regs [(2#4, 0x05#8)]) 0xE29E) (fun t => t.pc == 0x202#16) = true := by decide
-- T-KEY-4, T-KEY-6
theorem test_sknp : ends (run (regs [(2#4, 0x05#8)]) 0xE2A1) (fun t => t.pc == 0x204#16) = true := by decide
theorem test_sknp_down : ends (run (setKey (regs [(2#4, 0xF5#8)]) 5#4 true) 0xE2A1) (fun t => t.pc == 0x202#16) = true := by
  decide
-- T-KEY-9, T-KEY-7
theorem test_ldVxK : ends (run (setKey (setKey (regs [(5#4, 0x99#8)]) 9#4 true) 3#4 true) 0xF50A)
    (fun t => getV t 5#4 == 0x03#8 && t.pc == 0x202#16) = true := by decide
theorem test_ldVxK_waits : ends (run (regs [(5#4, 0x99#8)]) 0xF50A)
    (fun t => decide (t = (regs [(5#4, 0x99#8)]).withFetchWord 16 0xF50A)) = true := by decide
-- T-TMR-1, T-TMR-2, T-TMR-3
theorem test_ldVxDt : ends (run { State.reset with dt := 0x2A#8, st := 0x07#8 } 0xF307) (fun t => getV t 3#4 == 0x2A#8) = true := by
  decide
theorem test_ldDtVx : ends (run (regs [(3#4, 0x3C#8)]) 0xF315) (fun t => t.dt == 0x3C#8 && t.st == 0#8) = true := by decide
theorem test_ldStVx : ends (run (regs [(3#4, 0x05#8)]) 0xF318) (fun t => t.st == 0x05#8 && t.dt == 0#8) = true := by decide
-- T-ERR-1, T-ERR-9, T-ERR-10, T-ERR-11
theorem test_unknown_opcode : fails (run State.reset 0x0FFF) (.unknownOpcode 0x0FFF#16) = true := by decide
theorem test_fetch_split : fails (step { bytesAt State.reset 0xFFF [0x0F#8] with pc := 0xFFF#16 }) (.memoryOutOfBounds 0x1000#16) = true := by
  decide
theorem test_fetch_above : fails (step { State.reset with pc := 0x1000#16 }) (.memoryOutOfBounds 0x1000#16) = true := by decide
theorem test_fetch_last : ends (run { State.reset with pc := 0xFFE#16 } 0x6011) (fun t => t.pc == 0x1000#16) = true := by decide
-- T-HOST-4, T-HOST-5
theorem test_tick : (tickTimers { State.reset with dt := 255#8, st := 1#8 }).dt = 254#8 ∧
    (tickTimers { State.reset with dt := 0#8, st := 200#8 }).st = 199#8 ∧ (tickTimers State.reset).dt = 0#8 := by decide
-- T-RST-1
theorem test_reset_image : ((created 0 [0x60#8, 0x05#8, 0x61#8, 0x03#8, 0x80#8, 0x14#8]).mem =
    [(0x200, 0x60#8), (0x201, 0x05#8), (0x202, 0x61#8), (0x203, 0x03#8), (0x204, 0x80#8), (0x205, 0x14#8)]) := by decide
-- T-RST-4
theorem test_reset_empty : fails (step State.reset) (.unknownOpcode 0x0000#16) = true := by decide
-- R178
theorem test_codes : faultCode (.memoryOutOfBounds 0x1000#16) = 3 ∧ faultPayload (.unknownOpcode 0x0FFF#16) = 0x0FFF#16 := by decide

/-! ## Witnesses: for each statement with hypotheses, something that meets them all -/

theorem witness_EncodeOfDecode : decodeWord 0x8BC6#16 = .ok (.shr 11#4 12#4) ∧ decodeWord 0xFF65#16 = .ok (.loadRegs 15#4) := by
  decide
theorem witness_DecoderFollowsOpcodeTable : decodeWord 0x801E#16 = .ok (.shl 0#4 1#4) ∧
    OpcodeRow.mk "SHL_Vx" 0x800E#16 0xF00F#16 ∈ opcodeTable ∧
    OpcodeRow.selects ⟨"SHL_Vx", 0x800E#16, 0xF00F#16⟩ 0x801E#16 = true := by decide
theorem witness_UnknownWordsByClass :
    decodeWord 0x00EF#16 = .error (.unknownOpcode 0x00EF#16) ∧ decodeWord 0x5001#16 = .error (.unknownOpcode 0x5001#16) ∧
    decodeWord 0x8008#16 = .error (.unknownOpcode 0x8008#16) ∧ decodeWord 0x900F#16 = .error (.unknownOpcode 0x900F#16) ∧
    decodeWord 0xE09F#16 = .error (.unknownOpcode 0xE09F#16) ∧ decodeWord 0xF008#16 = .error (.unknownOpcode 0xF008#16) := by
  decide
theorem witness_DecoderFieldsOfEveryWord :
    fetchWord { bytesAt State.reset 0xFFE [0xAB#8, 0xCD#8] with pc := 0xFFE#16 } = .ok 0xABCD#16 := rfl
theorem witness_FetchBigEndianOrOutOfBounds :
    ({ State.reset with pc := 4094#16 } : State).pc.toNat ≤ 4094 ∧ ({ State.reset with pc := 4095#16 } : State).pc.toNat = 4095 ∧
    4095 < ({ State.reset with pc := 4096#16 } : State).pc.toNat := by decide

/-- A state about to run the word at the last fetchable address. -/
def atEnd (w : Nat) : State := ({ State.reset with pc := 0xFFE#16 } : State).withFetchWord 16 w

theorem witness_StepRunsDecodedInstruction : (atEnd 0x6011).pc.toNat ≤ 4094 ∧
    decode [memRead (atEnd 0x6011).mem (atEnd 0x6011).pc.toNat, memRead (atEnd 0x6011).mem ((atEnd 0x6011).pc.toNat + 1)] =
      .ok (.ldImm 0#4 0x11#8, []) := by decide
theorem witness_StoredBytesAreFetched : memWf (atEnd 0x6011).mem = true ∧ (atEnd 0x6011).pc.toNat ≤ 4094 ∧
    ∃ t, writeRange (atEnd 0x6011) (atEnd 0x6011).pc.toNat (encodeBytes (.jp 0x200#12)) = .ok t :=
  ⟨by decide, by decide, _, rfl⟩
theorem witness_UnknownWordIsReported : State.reset.pc.toNat ≤ 4094 ∧
    ∀ r ∈ opcodeTable, r.selects (wordAtPc State.reset) = false := by decide
theorem witness_FailedStepChangesNothingAndRepeats :
    perform (some State.reset) .step = some (some State.reset, .error (.unknownOpcode 0x0000#16)) := rfl
theorem witness_StepErrorsInPhaseOrder :
    step { State.reset with pc := 4095#16 } = .fault (.memoryOutOfBounds 4096#16) ∧
    step (atEnd 0x0FFF) = .fault (.unknownOpcode 0x0FFF#16) ∧ step (atEnd 0x00EE) = .fault .stackUnderflow :=
  ⟨rfl, rfl, rfl⟩
theorem witness_StackOverflowExactlyOnFullCall :
    exec (.call 0x300#12) { State.reset with sp := 16 } = .fault .stackOverflow ∧
    Fetches { atEnd 0x2300 with sp := 16 } (.call 0x300#12) := ⟨rfl, by decide, rfl⟩
theorem witness_StackUnderflowExactlyOnEmptyReturn :
    exec .ret State.reset = .fault .stackUnderflow ∧ Fetches (atEnd 0x00EE) .ret := ⟨rfl, by decide, rfl⟩
theorem witness_MemoryOutOfBoundsExactlyPastTheEnd :
    exec (.ldB 5#4) { State.reset with i := 0xFFE#16 } = .fault (.memoryOutOfBounds 0x1000#16) ∧
    exec (.storeRegs 0#4) { State.reset with i := 0x1000#16 } = .fault (.memoryOutOfBounds 0x1000#16) ∧
    exec (.drw 0#4 0#4 1#4) { State.reset with i := 0xFFFF#16 } = .fault (.memoryOutOfBounds 0xFFFF#16) := ⟨rfl, rfl, rfl⟩
theorem witness_EveryInstructionCompletesWhereItsCheckPasses :
    ({ State.reset with sp := 15 } : State).sp.val ≠ 16 ∧ ({ State.reset with sp := 1 } : State).sp.val ≠ 0 ∧
    accessLength (.drw 0#4 0#4 0#4) = 0 ∧ 0xFFD + accessLength (.ldB 0#4) - 1 ≤ 4095 ∧
    0xFF0 + accessLength (.loadRegs 15#4) - 1 ≤ 4095 := by decide
theorem witness_JumpGoesToItsAddress : 0x1FFF#16 &&& 0xF000#16 = 0x1000#16 ∧
    Fetches (atEnd 0x1FFE) (.jp 0xFFE#12) ∧ (0xFFE#12).toNat = (atEnd 0x1FFE).pc.toNat :=
  ⟨by decide, ⟨by decide, rfl⟩, by decide⟩
theorem witness_CallPushesItsReturnAddress : State.reset.sp.val < 16 ∧
    ({ State.reset with sp := 15 } : State).sp.val < 16 ∧ (0 : Fin 16).val ≠ ({ State.reset with sp := 15 } : State).sp.val := by
  decide
theorem witness_ReturnPopsTheLastAddress : ({ State.reset with sp := 1 } : State).sp.val ≠ 0 ∧
    ({ State.reset with sp := 16 } : State).sp.val ≠ 0 := by decide
theorem witness_CallThenReturnRoundTrip : ∃ t r : State, exec (.call 0x300#12) { State.reset with sp := 15 } = .next t ∧
    r.sp = t.sp ∧ r.stack = t.stack := ⟨_, _, rfl, rfl, rfl⟩
theorem witness_Skips : (getV (regs [(3#4, 0x42#8)]) 3#4).toNat = (0x42#8).toNat ∧
    (getV (regs [(3#4, 0x42#8)]) 3#4).toNat ≠ (0x41#8).toNat ∧
    (getV (regs [(3#4, 0x42#8)]) 3#4).toNat = (getV (regs [(3#4, 0x42#8)]) 3#4).toNat ∧
    (getV (regs [(3#4, 0x42#8)]) 3#4).toNat ≠ (getV (regs [(3#4, 0x42#8)]) 15#4).toNat := by decide
theorem witness_JumpWithOffsetIsNotReduced : ∃ t u : State,
    exec (.jpV0 0xFFE#12) (regs [(0#4, 0x01#8)]) = .next t ∧ t.pc.toNat = 4095 ∧
    exec (.jpV0 0xFFF#12) (regs [(0#4, 0xFF#8)]) = .next u ∧ u.pc.toNat = 0x10FE := ⟨_, _, rfl, by decide, rfl, by decide⟩
theorem witness_LoadImmediateWritesItsRegister : 0x6F12#16 &&& 0xF000#16 = 0x6000#16 ∧ (0#4 : Nibble) ≠ 15#4 := by decide
theorem witness_OtherRegisters : ∃ x k : Nibble, x ≠ 0xF#4 ∧ k ≠ x ∧ k ≠ 0xF#4 := ⟨0#4, 14#4, by decide⟩
theorem witness_FlagIsZeroOrOne : setsFlag (.drw 15#4 15#4 15#4) = true ∧ setsFlag (.shl 15#4 0#4) = true ∧
    (∃ t, exec (.drw 15#4 15#4 15#4) State.reset = .next t) ∧ ∃ t, exec (.shl 15#4 0#4) State.reset = .next t :=
  ⟨rfl, rfl, ⟨_, rfl⟩, ⟨_, rfl⟩⟩
theorem witness_RegistersOutsideTheMatrixKeepTheirValue : (∃ t, exec (.loadRegs 14#4) State.reset = .next t) ∧
    writesV (.loadRegs 14#4) 15#4 = false := ⟨⟨_, rfl⟩, by decide⟩
theorem witness_OnlyTheMatrixWrites : (∃ t, exec (.storeRegs 15#4) { State.reset with i := 0xFF0#16 } = .next t) ∧
    writesI (.storeRegs 15#4) = false ∧ writesPc (.storeRegs 15#4) = false ∧ writesSp (.storeRegs 15#4) = false ∧
    writesStack (.storeRegs 15#4) = false ∧ writesFb (.storeRegs 15#4) = false ∧ writesMem (.loadRegs 15#4) = false :=
  ⟨⟨_, rfl⟩, rfl, rfl, rfl, rfl, rfl, rfl⟩
theorem witness_BcdStoresThreeDigits : memWf State.reset.mem = true ∧
    ({ State.reset with i := 4093#16 } : State).i.toNat ≤ 4093 ∧
    (0 < indexBase { State.reset with i := 4093#16 } ∨ indexBase { State.reset with i := 4093#16 } + 2 < 0) := by decide
theorem witness_StoreAndLoadRegisters : memWf State.reset.mem = true ∧
    ({ State.reset with i := 4080#16 } : State).i.toNat + (15#4).toNat ≤ 4095 ∧ (15#4).toNat ≤ (15#4).toNat ∧
    (0#4).toNat < (1#4).toNat := by decide
theorem witness_StoreThenLoadRoundTrip : memWf State.reset.mem = true ∧
    ∃ t r : State, exec (.storeRegs 15#4) { State.reset with i := 4080#16 } = .next t ∧ r.mem = t.mem ∧ r.i = 4080#16 :=
  ⟨rfl, _, _, rfl, rfl, rfl⟩
theorem witness_DrawLoopsComputeTheMask : (List.replicate 15 0xFF#8).length ≤ 15 ∧ ([] : List Byte).length ≤ 15 := by decide
theorem witness_DrawXorsTheSpriteAndFlagsCollision : (0#4).toNat = 0 ∧
    ({ State.reset with i := 4091#16 } : State).i.toNat + (5#4).toNat - 1 ≤ 4095 := by decide
theorem witness_DrawTwiceRestoresTheScreen : ∃ t u : State, (0#4 : Nibble) ≠ 0xF#4 ∧ (1#4 : Nibble) ≠ 0xF#4 ∧
    exec (.drw 0#4 1#4 5#4) State.reset = .next t ∧ exec (.drw 0#4 1#4 5#4) t = .next u :=
  ⟨_, _, by decide, by decide, rfl, rfl⟩
theorem witness_CollisionIsAPixelTurnedOff : ∃ t : State,
    exec (.drw 0#4 1#4 1#4) { State.reset with fb := setPixel clearPixels 0 0 true } = .next t ∧ getV t 0xF#4 = 0x01#8 ∧
    getPixel t.fb 0 0 = false := ⟨_, rfl, by decide, by decide⟩
theorem witness_KeySkipsTestTheLowNibble : (15#4).toNat = (getV (regs [(2#4, 0xFF#8)]) 2#4).toNat % 16 ∧
    keyDown (setKey (regs [(2#4, 0xFF#8)]) 15#4 true) 15#4 = true ∧ keyDown (regs [(2#4, 0xFF#8)]) 15#4 = false := by decide
theorem witness_KeyWaitReportsTheLowestKey : keyDown (setKey State.reset 15#4 true) 15#4 = true ∧
    ∀ j : Nibble, j.toNat < (15#4).toNat → keyDown (setKey State.reset 15#4 true) j = false := by decide
theorem witness_KeyWaitWithoutKeyIsReissued : (∀ k, keyDown (atEnd 0xF50A) k = false) ∧
    Fetches (atEnd 0xF50A) (.ldVxK 5#4) := ⟨by decide, by decide, rfl⟩
theorem witness_KeypadReachesOnlyTheKeyInstructions : readsKeys (.ldVxDt 0#4) = false ∧ readsKeys .ret = false ∧
    (∃ t, exec (.ldVxDt 0#4) State.reset = .next t) ∧ exec .ret State.reset = .fault .stackUnderflow :=
  ⟨rfl, rfl, ⟨_, rfl⟩, rfl⟩
theorem witness_NoInstructionReadsTheSoundTimer : (∃ t, exec (.ldStVx 0#4) State.reset = .next t) ∧
    exec .ret State.reset = .fault .stackUnderflow := ⟨⟨_, rfl⟩, rfl⟩
theorem witness_SetKeyWritesOneKey : (0#4 : Nibble) ≠ 15#4 := by decide
theorem witness_Reset : (List.replicate 3584 0x00#8).length ≤ 3584 ∧ ([0x60#8] : List Byte).length ≤ 3584 := by
  rw [List.length_replicate]
  decide
theorem witness_ResetLoadsFontAndImage : 79 < 80 ∧ 0 < [0x60#8].length ∧ (80 ≤ 80 ∧ 80 < 0x200) ∧
    (0x200 + [0x60#8].length ≤ 4095 ∧ 4095 < 4096) := by decide
theorem witness_RefusedLoadAndUncreatedBlock : 3584 < (List.replicate 3585 0x00#8).length ∧
    ∃ out, perform none (.reset []) = some out := ⟨by rw [List.length_replicate]; decide, _, rfl⟩
theorem witness_StepKeepsInv : Inv (State.reset.withFetchWord 16 0x2300) ∧
    ∃ t, step (State.reset.withFetchWord 16 0x2300) = .next t := ⟨by decide, _, rfl⟩
theorem witness_ReachableMachinesAreInRange : Reachable (some (created 0 [])) :=
  .move (t := .reset []) (r := .ok) .start rfl
theorem witness_PcAfterEveryStep : Fetches (atEnd 0x1FFF) (.jp 0xFFF#12) ∧ ∃ t, step (atEnd 0x1FFF) = .next t :=
  ⟨⟨by decide, rfl⟩, _, rfl⟩

end Sys2Proof.Tests
end

section
/-! PROOFS. The statements about the state (10_state.md): the access matrix R40 as frame lemmas, where a step leaves `PC`,
what no instruction reads, `Reset`, and the ranges of R39 in every reachable machine. -/

namespace Sys2Proof.Machine

/-! ## What an instruction that ends normally did, for those that have more than one outcome -/

/-- An outcome that is a next state under a condition and an error otherwise: where it is a next state, the condition held. -/
theorem next_of_cases {o : Host.Outcome State Fault Refusal} {p q : Prop} {u : p → State} {e : Fault} {t : State}
    (hc : (∃ hp : p, o = .next (u hp)) ∨ (q ∧ o = .fault e)) (h : o = .next t) : ∃ hp : p, t = u hp := by
  rcases hc with ⟨hp, ho⟩ | ⟨-, ho⟩ <;> rw [ho] at h
  · exact ⟨hp, (Host.Outcome.next.inj h).symm⟩
  · cases h

theorem exec_call_next {nnn : Addr12} {s t : State} (h : exec (.call nnn) s = .next t) :
    ∃ hsp : s.sp.val < 16, t =
      { s with stack := s.stack.set s.sp.val s.pc hsp, sp := ⟨s.sp.val + 1, Nat.succ_lt_succ hsp⟩, pc := zext12 nnn } :=
  next_of_cases (exec_call_cases s nnn) h

theorem exec_ret_next {s t : State} (h : exec .ret s = .next t) :
    ∃ _hsp : s.sp.val ≠ 0, t =
      { s with pc := s.stack[s.sp.val - 1]'(by omega), sp := ⟨s.sp.val - 1, by omega⟩ } :=
  next_of_cases (exec_ret_cases s) h

theorem exec_ldB_next {x : Nibble} {s t : State} (h : exec (.ldB x) s = .next t) :
    ∃ _ : s.i.toNat + 3 ≤ 4096, t = { s with mem := memWriteList s.mem s.i.toNat (bcdDigits (getV s x)) } :=
  next_of_cases ((exec_ldB_cases s x).imp_left exists_prop.2) h

theorem exec_storeRegs_next {x : Nibble} {s t : State} (h : exec (.storeRegs x) s = .next t) :
    ∃ _ : s.i.toNat + x.toNat ≤ 4095, t = { s with mem := memWriteList s.mem s.i.toNat (regBytes s x) } :=
  next_of_cases ((exec_storeRegs_cases s x).imp_left exists_prop.2) h

theorem exec_loadRegs_next {x : Nibble} {s t : State} (h : exec (.loadRegs x) s = .next t) :
    ∃ _ : s.i.toNat + x.toNat ≤ 4095,
      t = { s with v := loadBytes s.v (memReadList s.mem s.i.toNat (x.toNat + 1)) } :=
  next_of_cases ((exec_loadRegs_cases s x).imp_left exists_prop.2) h

theorem exec_drw_next {x y n : Nibble} {s t : State} (h : exec (.drw x y n) s = .next t) :
    ∃ (fb : Pixels) (hit : Bool), t = setFlag { s with fb := fb } hit := by
  obtain ⟨-, ht⟩ := next_of_cases ((exec_drw_cases s x y n).imp exists_prop.2 and_assoc.2) h
  exact ⟨_, _, ht⟩

theorem exec_ldVxK_next {x : Nibble} {s t : State} (h : exec (.ldVxK x) s = .next t) :
    (∃ k, lowestKey s = some k ∧ t = setV s x (BitVec.ofNat 8 k)) ∨
    (lowestKey s = none ∧ t = jumpTo (s.pc - 2#16) s) := by
  rcases exec_ldVxK_cases s x with ⟨k, hk, e⟩ | ⟨hk, e⟩ <;> rw [e] at h
  · exact .inl ⟨k, hk, (Host.Outcome.next.inj h).symm⟩
  · exact .inr ⟨hk, (Host.Outcome.next.inj h).symm⟩

/-! ## The access matrix (R40) -/

/-- The columns of R40 for everything but the V registers, as a relation between the state before an instruction and the one
after it. The memory clause is stronger than R31's: the list itself is kept. -/
structure KeptOutsideMatrix (i : Instr) (s t : State) : Prop where
  index : writesI i = false → t.i = s.i
  pc : writesPc i = false → t.pc = s.pc
  sp : writesSp i = false → t.sp = s.sp
  stack : writesStack i = false → t.stack = s.stack
  fb : writesFb i = false → t.fb = s.fb
  mem : writesMem i = false → t.mem = s.mem
  dt : (∀ x, i ≠ .ldDtVx x) → t.dt = s.dt
  st : (∀ x, i ≠ .ldStVx x) → t.st = s.st
  keys : t.keys = s.keys
  draws : (∀ x kk, i ≠ .rnd x kk) → t.draws = s.draws

theorem exec_keptOutsideMatrix {i : Instr} {s t : State} (h : exec i s = .next t) : KeptOutsideMatrix i s t := by
  cases i
  case call nnn =>
    obtain ⟨hsp, rfl⟩ := exec_call_next h
    constructor <;> simp [writesPc, writesSp, writesStack]
  case ret =>
    obtain ⟨hsp, rfl⟩ := exec_ret_next h
    constructor <;> simp [writesPc, writesSp]
  case ldB x =>
    obtain ⟨-, rfl⟩ := exec_ldB_next h
    constructor <;> simp [writesMem]
  case storeRegs x =>
    obtain ⟨-, rfl⟩ := exec_storeRegs_next h
    constructor <;> simp [writesMem]
  case loadRegs x =>
    obtain ⟨-, rfl⟩ := exec_loadRegs_next h
    constructor <;> simp
  case drw x y n =>
    obtain ⟨fb, hit, rfl⟩ := exec_drw_next h
    constructor <;> simp [writesFb]
  case ldVxK x =>
    rcases exec_ldVxK_next h with ⟨k, -, rfl⟩ | ⟨-, rfl⟩ <;> constructor <;> simp [writesPc]
  all_goals
    obtain rfl := Host.Outcome.next.inj h
    constructor <;> simp [writesI, writesPc, writesFb, setI, jumpTo]

/-- Settles O33: `KeptOutsideMatrix` field by field, equal memories reading equal. -/
theorem onlyTheMatrixWrites : Obligations.OnlyTheMatrixWrites := by
  intro i s t h
  have kept := exec_keptOutsideMatrix h
  exact ⟨kept.index, kept.pc, kept.sp, kept.stack, kept.fb, fun hw a => by rw [kept.mem hw], kept.dt, kept.st, kept.keys,
    kept.draws⟩

/-- Fx65 leaves the registers above Vx alone (R146). -/
theorem getV_loadBytes_above {s : State} {bs : List Byte} {k : Nibble} (hk : bs.length ≤ k.toNat) :
    getV { s with v := loadBytes s.v bs } k = getV s k := by
  simp only [getV, loadBytes_getElem, List.getD_eq_getElem?_getD, List.getElem?_eq_none hk, Option.getD_none]

/-- Settles O32, by the ways there are to write a register: a named destination, the flag, and the range of Fx65. -/
theorem registersOutsideTheMatrixKeepTheirValue : Obligations.RegistersOutsideTheMatrixKeepTheirValue := by
  intro i s t k h hw
  cases i
  case call nnn => obtain ⟨_, rfl⟩ := exec_call_next h; rfl
  case ret => obtain ⟨_, rfl⟩ := exec_ret_next h; rfl
  case ldB x => obtain ⟨-, rfl⟩ := exec_ldB_next h; rfl
  case storeRegs x => obtain ⟨-, rfl⟩ := exec_storeRegs_next h; rfl
  case loadRegs x =>
    obtain ⟨-, rfl⟩ := exec_loadRegs_next h
    have hk : x.toNat < k.toNat := by simpa [writesV, namesV, setsFlag] using hw
    exact getV_loadBytes_above (by simpa using hk)
  case drw x y n =>
    obtain ⟨fb, hit, rfl⟩ := exec_drw_next h
    have hk : k ≠ vf := by simpa [writesV, namesV, setsFlag] using hw
    rw [getV_setFlag, if_neg hk]
    rfl
  case ldVxK x =>
    have hk : k ≠ x := by simpa [writesV, namesV, setsFlag] using hw
    rcases exec_ldVxK_next h with ⟨n, -, rfl⟩ | ⟨-, rfl⟩
    · rw [getV_setV, if_neg hk]
    · rfl
  case ldImm x _ | addImm x _ | ldReg x _ | orReg x _ | andReg x _ | xorReg x _ | rnd x _ | ldVxDt x =>
    obtain rfl := Host.Outcome.next.inj h
    have hk : k ≠ x := by simpa [writesV, namesV, setsFlag] using hw
    exact (getV_setV ..).trans (if_neg hk)
  case addReg x _ | subReg x _ | subnReg x _ | shr x _ | shl x _ =>
    obtain rfl := Host.Outcome.next.inj h
    have hk : k ≠ x ∧ k ≠ vf := by simpa [writesV, namesV, setsFlag] using hw
    rw [getV_setResultFlag, if_neg hk.2, if_neg hk.1]
  all_goals
    obtain rfl := Host.Outcome.next.inj h
    exact getV_congr (by simp) k

/-- Each of the six instructions of R21 ends with the write of the flag (R133, R151). -/
theorem exec_setsFlag_next {i : Instr} {s t : State} (hi : setsFlag i = true) (h : exec i s = .next t) :
    ∃ u c, t = setFlag u c := by
  match i, hi, h with
  | .drw .., _, h =>
    obtain ⟨fb, hit, rfl⟩ := exec_drw_next h
    exact ⟨_, _, rfl⟩
  | .addReg .., _, h | .subReg .., _, h | .subnReg .., _, h | .shr .., _, h | .shl .., _, h =>
    exact ⟨_, _, (Host.Outcome.next.inj h).symm⟩

/-- Settles O30: the flag is written last and is 0 or 1. -/
theorem flagIsZeroOrOne : Obligations.FlagIsZeroOrOne := by
  intro i s t hi h
  obtain ⟨u, c, rfl⟩ := exec_setsFlag_next hi h
  have hvf : getV (setFlag u c) 0xF#4 = flagByte c := getV_setV_same u vf _
  rw [hvf]
  exact flagByte_zero_or_one c

/-! ## What no instruction reads: the keypad but for three, the sound timer -/

/-- The state with another keypad and another sound timer. -/
def withKeysSt (ks : Vector Bool 16) (b : Byte) (s : State) : State := { s with keys := ks, st := b }

/-- An outcome with its next state, if it has one, changed. -/
def mapNext (f : State → State) : Host.Outcome State Fault Refusal → Host.Outcome State Fault Refusal
  | .next s => .next (f s)
  | .fault e => .fault e
  | .refused r => .refused r

section

variable (ks : Vector Bool 16) (b : Byte) (s : State)

theorem skipIf_withKeysSt (c : Bool) : skipIf c (withKeysSt ks b s) = withKeysSt ks b (skipIf c s) := by
  cases c <;> rfl

theorem pushReturn_withKeysSt : pushReturn (withKeysSt ks b s) = (pushReturn s).map (withKeysSt ks b) := by
  by_cases h : s.sp.val < 16 <;> simp [pushReturn, withKeysSt, h, Except.map]

theorem popReturn_withKeysSt : popReturn (withKeysSt ks b s) = (popReturn s).map (withKeysSt ks b) := by
  by_cases h : s.sp.val = 0 <;> simp [popReturn, withKeysSt, h, Except.map]

theorem readRange_withKeysSt (base n : Nat) : readRange (withKeysSt ks b s) base n = readRange s base n := rfl

theorem indexBase_withKeysSt : indexBase (withKeysSt ks b s) = indexBase s := rfl

theorem writeRange_withKeysSt (base : Nat) (bs : List Byte) :
    writeRange (withKeysSt ks b s) base bs = (writeRange s base bs).map (withKeysSt ks b) := by
  cases h : rangeError base bs.length <;> simp [writeRange, withKeysSt, h, Except.map]

theorem finish_map (f : State → State) (r : Except Fault State) : finish (r.map f) = mapNext f (finish r) := by
  cases r <;> rfl

theorem lowestKey_withKeysSt : lowestKey (withKeysSt s.keys b s) = lowestKey s := rfl

/-- An instruction that does not write `ST` does the same under every `ST`, and, unless it reads the keypad, under every
keypad; it leaves both as they are (R28, R29). -/
theorem exec_withKeysSt {i : Instr} (hk : readsKeys i = true → ks = s.keys) (hst : ∀ x, i ≠ .ldStVx x) :
    exec i (withKeysSt ks b s) = mapNext (withKeysSt ks b) (exec i s) := by
  cases i
  case ldStVx x => exact absurd rfl (hst x)
  case skp | sknp =>
    obtain rfl := hk rfl
    exact congrArg Host.Outcome.next (skipIf_withKeysSt ..)
  case ldVxK x =>
    obtain rfl := hk rfl
    simp only [exec, execLdVxK, lowestKey_withKeysSt]
    cases lowestKey s <;> rfl
  case call nnn =>
    simp only [exec, execCall, pushReturn_withKeysSt]
    cases pushReturn s <;> rfl
  case ret => exact (congrArg finish (popReturn_withKeysSt ks b s)).trans (finish_map ..)
  case ldB | storeRegs => exact (congrArg finish (writeRange_withKeysSt ks b s _ _)).trans (finish_map ..)
  case loadRegs x =>
    simp only [exec, execLoadRegs, indexBase_withKeysSt, readRange_withKeysSt]
    cases readRange s (indexBase s) (regCount x) <;> rfl
  case drw x y n =>
    simp only [exec, execDrw, indexBase_withKeysSt, readRange_withKeysSt]
    cases readRange s (indexBase s) n.toNat <;> rfl
  case seImm | sneImm | seReg | sneReg => exact congrArg Host.Outcome.next (skipIf_withKeysSt ..)
  all_goals rfl

end

/-- Settles O48: the keypad alone is replaced, `ST` is what it is; Fx18, the one writer of `ST`, reads no key. -/
theorem keypadReachesOnlyTheKeyInstructions : Obligations.KeypadReachesOnlyTheKeyInstructions := by
  intro i s ks hk
  by_cases hst : ∀ x, i ≠ .ldStVx x
  · have he : exec i { s with keys := ks } = mapNext (withKeysSt ks s.st) (exec i s) :=
      exec_withKeysSt ks s.st s (by simp [hk]) hst
    refine ⟨fun t h => ?_, fun e h => by rw [he, h]; rfl⟩
    rw [he, h, ← (exec_keptOutsideMatrix h).st hst]
    rfl
  · push Not at hst
    obtain ⟨x, rfl⟩ := hst
    exact ⟨fun t h => by obtain rfl := Host.Outcome.next.inj h; rfl, nofun⟩

/-- Settles O49: `ST` alone is replaced, the keypad is what it is; Fx18 overwrites `ST` with `Vx`. -/
theorem noInstructionReadsTheSoundTimer : Obligations.NoInstructionReadsTheSoundTimer := by
  intro i s b
  by_cases hst : ∀ x, i ≠ .ldStVx x
  · have he : exec i { s with st := b } = mapNext (withKeysSt s.keys b) (exec i s) :=
      exec_withKeysSt s.keys b s (fun _ => rfl) hst
    refine ⟨fun t h => ⟨b, ?_⟩, fun e h => by rw [he, h]; rfl⟩
    rw [he, h, ← (exec_keptOutsideMatrix h).keys]
    rfl
  · push Not at hst
    obtain ⟨x, rfl⟩ := hst
    exact ⟨fun t h => ⟨getV s x, by obtain rfl := Host.Outcome.next.inj h; rfl⟩, nofun⟩

/-! ## Fx0A with no key pressed, and the stack instructions -/

theorem lowestKey_eq_none_iff {s : State} : lowestKey s = none ↔ ∀ k, keyDown s k = false :=
  lowestKey_none.trans ⟨fun h k => h k.toNat k.isLt, fun h k hk => h (BitVec.ofFin ⟨k, hk⟩)⟩

theorem exec_ldVxK_noKey {s : State} (x : Nibble) (h : ∀ k, keyDown s k = false) :
    exec (.ldVxK x) s = .next (jumpTo (s.pc - 2#16) s) := by
  rcases exec_ldVxK_cases s x with ⟨k, hk, -⟩ | ⟨-, e⟩
  · simp [lowestKey_eq_none_iff.2 h] at hk
  · exact e

/-- Taking `PC` back by 2 undoes the advance (R92, R163). -/
theorem jumpTo_back_advance (s : State) : jumpTo ((advance s).pc - 2#16) (advance s) = s := by
  simp [jumpTo, advance]

/-- Settles O46: the instruction takes `PC` back by 2, which undoes the advance of the step. -/
theorem keyWaitWithoutKeyIsReissued : Obligations.KeyWaitWithoutKeyIsReissued := by
  refine ⟨fun x s h => ⟨_, exec_ldVxK_noKey x h, by simp, rfl⟩, fun x s h ⟨hpc, hd⟩ => ?_⟩
  rw [step_of_decode hpc hd, exec_ldVxK_noKey (s := advance s) x h, jumpTo_back_advance]

theorem zext12_toNat (nnn : Addr12) : (zext12 nnn).toNat = nnn.toNat := by
  have := nnn.isLt
  simp only [zext12, BitVec.toNat_setWidth]
  omega

/-- Settles O18: with room on the stack the call is its push and its jump. -/
theorem callPushesItsReturnAddress : Obligations.CallPushesItsReturnAddress := by
  intro nnn s h
  rcases exec_call_cases s nnn with ⟨_, e⟩ | ⟨hfull, -⟩
  · refine ⟨_, e, zext12_toNat nnn, rfl, Vector.getElem_set_self h, fun k hk => ?_, rfl⟩
    exact Vector.getElem_set_ne h k.isLt (Ne.symm hk)
  · omega

/-- Settles O19: with an entry on the stack the return is its pop. -/
theorem returnPopsTheLastAddress : Obligations.ReturnPopsTheLastAddress := by
  intro s h
  rcases exec_ret_cases s with ⟨_, e⟩ | ⟨hempty, -⟩
  · exact ⟨_, e, rfl, Nat.sub_add_cancel (Nat.pos_of_ne_zero h), rfl⟩
  · exact absurd hempty h

/-! ## Where a step leaves `PC` (R24) -/

@[simp] theorem keyDown_advance (s : State) (k : Nibble) : keyDown (advance s) k = keyDown s k := rfl

theorem skipIf_advance_pc_toNat {s : State} (hpc : s.pc.toNat ≤ 4094) (c : Bool) :
    (skipIf c (advance s)).pc.toNat = if c = true then s.pc.toNat + 4 else s.pc.toNat + 2 := by
  have h := advance_pc_toNat hpc
  cases c
  · exact h
  · rw [skipIf_pc, if_pos rfl, if_pos rfl, BitVec.toNat_add, h, BitVec.toNat_ofNat]
    omega

theorem zext12_add_zext8_toNat (nnn : Addr12) (b : Byte) : (zext12 nnn + zext8 b).toNat = nnn.toNat + b.toNat := by
  have := nnn.isLt
  have := b.isLt
  simp only [zext12, zext8, BitVec.toNat_add, BitVec.toNat_setWidth]
  omega

theorem pcAfter_of_not_writesPc {i : Instr} (hw : writesPc i = false) (s : State) : pcAfter s i = s.pc.toNat + 2 := by
  cases i <;> simp [writesPc, pcAfter] at hw ⊢

/-- Where an instruction run from the advanced state leaves `PC`: at the advance, or where the writers of R24 say. -/
theorem exec_advance_pc_toNat {i : Instr} {s t : State} (hpc : s.pc.toNat ≤ 4094) (h : exec i (advance s) = .next t) :
    t.pc.toNat = pcAfter s i := by
  cases hw : writesPc i
  · rw [(exec_keptOutsideMatrix h).pc hw, advance_pc_toNat hpc, pcAfter_of_not_writesPc hw]
  match i, hw, h with
  | .jp nnn, _, h =>
    obtain rfl := Host.Outcome.next.inj h
    exact zext12_toNat nnn
  | .call nnn, _, h =>
    obtain ⟨_, rfl⟩ := exec_call_next h
    exact zext12_toNat nnn
  | .jpV0 nnn, _, h =>
    obtain rfl := Host.Outcome.next.inj h
    exact zext12_add_zext8_toNat nnn _
  | .ret, _, h =>
    obtain ⟨hsp, rfl⟩ := exec_ret_next h
    have hsp' : s.sp.val ≠ 0 := hsp
    simp [pcAfter, hsp']
  | .seImm .., _, h | .sneImm .., _, h | .seReg .., _, h | .sneReg .., _, h =>
    obtain rfl := Host.Outcome.next.inj h
    rw [skipIf_advance_pc_toNat hpc]
    simp [pcAfter]
  | .skp x, _, h =>
    obtain rfl := Host.Outcome.next.inj h
    exact skipIf_advance_pc_toNat hpc _
  | .sknp x, _, h =>
    obtain rfl := Host.Outcome.next.inj h
    rw [skipIf_advance_pc_toNat hpc, keyDown_advance, getV_advance]
    cases hk : keyDown s (keyIndex (getV s x)) <;> simp [pcAfter, hk]
  | .ldVxK x, _, h =>
    have hnone : lowestKey (advance s) = none ↔ ¬ ∃ k, keyDown s k = true := by
      simp only [not_exists, Bool.not_eq_true]
      exact lowestKey_eq_none_iff
    rcases exec_ldVxK_next h with ⟨k, hk, rfl⟩ | ⟨hk, rfl⟩
    · have : ∃ k, keyDown s k = true := by
        by_contra hno
        simp [hnone.2 hno] at hk
      exact (advance_pc_toNat hpc).trans (if_pos this).symm
    · rw [jumpTo_back_advance]
      exact (if_neg (hnone.1 hk)).symm

/-- Settles O58: a step that ends normally ran the fetched instruction from the advanced state. -/
theorem pcAfterEveryStep : Obligations.PcAfterEveryStep := by
  intro s t i ⟨hpc, hd⟩ h
  rw [step_of_decode hpc hd] at h
  exact exec_advance_pc_toNat hpc h

/-! ## Every step keeps the invariant (R39) -/

theorem entry_le {s : State} {k : Fin 16} (h : EntryInRange s k) : s.stack[k.val].toNat ≤ 4096 := by
  rcases h with ⟨h, -⟩ | ⟨-, h⟩ <;> omega

/-- No place R24 names is above 0x10FE, the largest sum of Bnnn. -/
theorem pcAfter_le {s : State} (hpc : s.pc.toNat ≤ 4094) (hst : ∀ k, EntryInRange s k) (i : Instr) :
    pcAfter s i ≤ 0x10FE := by
  cases hw : writesPc i
  · rw [pcAfter_of_not_writesPc hw]
    omega
  match i, hw with
  | .jp nnn, _ | .call nnn, _ =>
    have := nnn.isLt
    simp only [pcAfter]
    omega
  | .jpV0 nnn, _ =>
    have := nnn.isLt
    have := (getV s v0).isLt
    simp only [pcAfter]
    omega
  | .ret, _ =>
    simp only [pcAfter]
    split
    · omega
    · have := entry_le (hst ⟨s.sp.val - 1, by omega⟩)
      simp only at this
      omega
  | .seImm .., _ | .sneImm .., _ | .seReg .., _ | .sneReg .., _ | .skp .., _ | .sknp .., _ | .ldVxK .., _ =>
    simp only [pcAfter]
    split <;> omega

/-- An instruction run from a state with canonical memory leaves canonical memory: the two writers store inside it. -/
theorem exec_memWf {i : Instr} {s t : State} (hm : memWf s.mem = true) (h : exec i s = .next t) :
    memWf t.mem = true := by
  cases hw : writesMem i
  · rw [(exec_keptOutsideMatrix h).mem hw]; exact hm
  match i, hw, h with
  | .ldB x, _, h =>
    obtain ⟨hi, rfl⟩ := exec_ldB_next h
    exact memWf_memWriteList hm hi
  | .storeRegs x, _, h =>
    obtain ⟨hi, rfl⟩ := exec_storeRegs_next h
    exact memWf_memWriteList hm (by rw [regBytes_length]; omega)

theorem writesStack_of_writesSp {i : Instr} (hw : writesSp i = false) : writesStack i = false := by
  cases i <;> simp [writesSp, writesStack] at hw ⊢

/-- An instruction run from a `PC` that is a return address keeps the stack entries in range: a call makes the one entry it
writes live, a return makes the one it leaves dead. -/
theorem exec_entryInRange {i : Instr} {s t : State} (hlo : 2 ≤ s.pc.toNat) (hhi : s.pc.toNat ≤ 4096)
    (hst : ∀ k, EntryInRange s k) (h : exec i s = .next t) (k : Fin 16) : EntryInRange t k := by
  cases hw : writesSp i
  · have hstack : t.stack = s.stack := (exec_keptOutsideMatrix h).stack (writesStack_of_writesSp hw)
    rw [EntryInRange, (exec_keptOutsideMatrix h).sp hw, hstack]
    exact hst k
  match i, hw, h with
  | .call nnn, _, h =>
    obtain ⟨hsp, rfl⟩ := exec_call_next h
    simp only [EntryInRange, Vector.getElem_set]
    split
    · exact .inr ⟨hlo, hhi⟩
    · exact (hst k).imp_left fun ⟨h0, hle⟩ => ⟨h0, by omega⟩
  | .ret, _, h =>
    obtain ⟨hsp, rfl⟩ := exec_ret_next h
    exact (hst k).imp_left fun ⟨h0, hle⟩ => ⟨h0, (Nat.sub_le ..).trans hle⟩

/-- Settles O56, clause by clause: memory from its writers, `PC` from where R24 leaves it, the stack from the advanced `PC`,
which a fetch inside memory puts between 2 and 4096. -/
theorem stepKeepsInv : Obligations.StepKeepsInv := by
  intro s t ⟨hm, _, hst⟩ h
  obtain ⟨hpc, i, -, he⟩ := step_next h
  have hadv := advance_pc_toNat hpc
  refine ⟨exec_memWf (s := advance s) hm he, ?_, exec_entryInRange (s := advance s) (by omega) (by omega) hst he⟩
  rw [exec_advance_pc_toNat hpc he]
  exact pcAfter_le hpc hst i

/-! ## `Reset` (R36 to R38, R200) and the reachable machines (R186) -/

theorem imageWf_of_length {img : List Byte} (h : img.length ≤ 3584) : imageWf img = true := decide_eq_true h

theorem perform_reset_ok {img : List Byte} (h : img.length ≤ 3584) (b : Block) :
    perform b (.reset img) = some (some (created (drawsOf b) img), .ok) := by
  cases b <;> simp [perform, resetBlock, imageWf_of_length h]

/-- Settles O52: `created` is `State.reset` but for memory and `draws`. -/
theorem resetZeroesEverythingButMemory : Obligations.ResetZeroesEverythingButMemory := by
  intro b img h
  refine ⟨_, perform_reset_ok h b, fun k => Vector.getElem_replicate k.isLt, rfl, rfl, rfl, fun k => ?_, rfl, rfl,
    fun k => Vector.getElem_replicate k.isLt, getPixel_clearPixels, rfl⟩
  exact congrArg BitVec.toNat (Vector.getElem_replicate k.isLt)

theorem memDefault_font {a : Nat} (h : a < font.length) : memDefault a = font[a] := List.getD_eq_getElem _ _ h

theorem memDefault_above_font {a : Nat} (h : 80 ≤ a) : memDefault a = 0x00#8 := List.getD_eq_default _ _ h

/-- What `Reset` leaves outside the image is what an unlisted address reads as (R37). -/
theorem memRead_loadImage_outside {img : List Byte} {a : Nat} (h : a < 0x200 ∨ 0x200 + img.length ≤ a) :
    memRead (loadImage img) a = memDefault a := memRead_memWriteList_outside [] h

/-- Settles O53: the image by the read after a run of writes, font and zeros by what the run leaves alone. -/
theorem resetLoadsFontAndImage : Obligations.ResetLoadsFontAndImage := by
  intro b img h
  refine ⟨_, perform_reset_ok h b, fun a ha => ?_, fun k hk => ?_, fun a ha => ?_⟩
  · exact (memRead_loadImage_outside (by omega)).trans (memDefault_font ha)
  · exact memRead_memWriteList_inside rfl (Nat.add_le_add_left h 0x200) hk
  · exact (memRead_loadImage_outside (by omega)).trans (memDefault_above_font (by omega))

theorem inv_created (draws : Nat) {img : List Byte} (h : imageWf img = true) : Inv (created draws img) := by
  refine ⟨loadImage_wf h, (by decide : 0x200 ≤ 0x10FE), fun k => .inl ⟨?_, Nat.zero_le _⟩⟩
  exact congrArg BitVec.toNat (Vector.getElem_replicate k.isLt)

/-- Settles O55: `State.reset` is what `Reset` creates from the empty image. -/
theorem invHoldsAtReset : Obligations.InvHoldsAtReset :=
  ⟨inv_created 0 (img := []) rfl, fun draws _ h => inv_created draws (imageWf_of_length h)⟩

/-- Every transaction keeps the invariant of the block's machine: `Reset` establishes it, a step keeps it, and the host's
other acts write neither memory nor `PC` nor the stack. -/
theorem perform_keeps_inv {b b' : Block} {tr : Transaction} {r : Response} (hb : ∀ s, b = some s → Inv s)
    (h : perform b tr = some (b', r)) : ∀ s, b' = some s → Inv s := by
  intro s hs
  subst hs
  match b, tr, h with
  | b, .reset img, h =>
    simp only [perform, resetBlock] at h
    split at h
    · cases h
      exact inv_created _ ‹_›
    · cases h
      exact hb s rfl
  | some u, .step, h =>
    simp only [perform, stepResponse] at h
    split at h
    · cases h
      exact stepKeepsInv u s (hb u rfl) ‹_›
    · cases h
      exact hb s rfl
    · cases h
  | some u, .tickTimers, h | some u, .setKey .., h =>
    cases h
    exact hb u rfl
  | some _, .readFramebuffer, h | some _, .readSoundTimer, h =>
    cases h
    exact hb s rfl

/-- Settles O57, by induction on the transactions. -/
theorem reachableMachinesAreInRange : Obligations.ReachableMachinesAreInRange := by
  intro s h
  suffices hall : ∀ b, Reachable b → ∀ s, b = some s → Inv s from hall _ h s rfl
  intro b hb
  induction hb with
  | start => exact nofun
  | move _ hp ih => exact perform_keeps_inv ih hp

end Sys2Proof.Machine
end

section
/-! PROOFS. The statements about memory (20_memory.md) and its users (43_index_and_memory.md, 44_display.md): the stored
instruction that the next step fetches, the bounds error of a data access, the three transfers at `I`, and the draw as the
mask of R152. -/

namespace Sys2Proof.Machine

/-! ## A stored instruction is the one fetched (R59, R63) -/

/-- The decoder takes every instruction's word back to it: the class nibble of the assembled word selects the arm, and in
the classes with more than one row the fixed low bits do (R75). -/
theorem decodeWord_encode (i : Instr) : decodeWord (encode i) = .ok i := by
  cases i
  case cls | ret => rfl
  all_goals
    simp [encode, decodeWord, decodeLastZero, decodeClass8, decodeClassE, decodeClassF]

/-- A checked write that succeeds fitted and wrote memory alone (R53, R56). -/
theorem writeRange_ok {s t : State} {base : Nat} {bs : List Byte} (hw : writeRange s base bs = .ok t) :
    (bs.length = 0 ∨ base + bs.length ≤ 4096) ∧ t = { s with mem := memWriteList s.mem base bs } := by
  rcases writeRange_cases s base bs with ⟨hfit, e⟩ | ⟨-, -, e⟩ <;> rw [e] at hw
  · exact ⟨hfit, (Except.ok.inj hw).symm⟩
  · cases hw

/-- Settles O9: the two bytes read back at `PC` are those stored, and their word decodes to the instruction. -/
theorem storedBytesAreFetched : Obligations.StoredBytesAreFetched := by
  intro s t i hm hpc hw
  obtain ⟨hfit, rfl⟩ := writeRange_ok hw
  have stored (k : Nat) (hk : k < 2) : memRead (memWriteList s.mem s.pc.toNat (encodeBytes i)) (s.pc.toNat + k) =
      (encodeBytes i)[k] := memRead_memWriteList_inside hm (hfit.resolve_left (by decide : 2 ≠ 0)) hk
  refine step_of_decode hpc ?_
  rw [show memRead _ s.pc.toNat = highByte (encode i) from stored 0 (by decide),
    show memRead _ (s.pc.toNat + 1) = lowByte (encode i) from stored 1 (by decide), wordOfBytes_bytes, decodeWord_encode]

/-! ## The bounds error of a data access (R56, R174) -/

theorem dataError_eq_iff (s : State) (a : Word) :
    dataError s = .memoryOutOfBounds a ↔ a.toNat = if 4095 < s.i.toNat then s.i.toNat else 4096 := by
  have := s.i.isLt
  rw [dataError, Fault.memoryOutOfBounds.injEq, ← BitVec.toNat_inj, BitVec.toNat_ofNat]
  split <;> split <;> omega

/-- An instruction raises the bounds error of its data access exactly where it accesses a byte and its range does not fit. -/
theorem exec_dataError_iff (i : Instr) (s : State) (a : Word) :
    exec i s = .fault (.memoryOutOfBounds a) ↔
      accessLength i ≠ 0 ∧ 4096 < s.i.toNat + accessLength i ∧ dataError s = .memoryOutOfBounds a := by
  rcases exec_outcome s i with ⟨t, e⟩ | ⟨⟨nnn, rfl⟩, -, e⟩ | ⟨rfl, -, e⟩ | ⟨h0, hout, e⟩
  · have := exec_next_fits e
    simp only [e, reduceCtorEq, false_iff]
    omega
  · simp [e, accessLength]
  · simp [e, accessLength]
  · simp [e, h0, hout]

/-- Settles O15: the last byte of a range that does not fit lies above 4095. -/
theorem memoryOutOfBoundsExactlyPastTheEnd : Obligations.MemoryOutOfBoundsExactlyPastTheEnd := by
  intro i s a
  rw [exec_dataError_iff, dataError_eq_iff]
  omega

/-! ## The transfers at `I` (R144 to R146) -/

/-- The digits are those of the decimal numeral: weighed by their places they give the byte (R144). -/
theorem bcdDigits_weighed (b : Byte) :
    100 * (b / 100#8).toNat + 10 * (b / 10#8 % 10#8).toNat + (b % 10#8).toNat = b.toNat := by
  simp only [BitVec.toNat_udiv, BitVec.toNat_umod, BitVec.toNat_ofNat, Nat.reducePow, Nat.reduceMod]
  omega

theorem bcdDigits_le_nine {b d : Byte} (hd : d ∈ bcdDigits b) : d.toNat ≤ 9 := by
  have := b.isLt
  simp only [bcdDigits, List.mem_cons, List.not_mem_nil, or_false] at hd
  rcases hd with rfl | rfl | rfl <;>
    simp only [BitVec.toNat_udiv, BitVec.toNat_umod, BitVec.toNat_ofNat, Nat.reducePow, Nat.reduceMod] <;> omega

/-- Settles O35: the three stored bytes read back as the digits. -/
theorem bcdStoresThreeDigits : Obligations.BcdStoresThreeDigits := by
  intro x s hm hi
  rcases exec_ldB_cases s x with ⟨hfit, e⟩ | ⟨hout, -⟩
  · have digit (k : Nat) (hk : k < 3) : memRead (memWriteList s.mem s.i.toNat (bcdDigits (getV s x)))
        (indexBase s + k) = (bcdDigits (getV s x))[k] := memRead_memWriteList_inside hm hfit hk
    refine ⟨_, e, ?_, fun k hk => ?_, fun a ha => memRead_memWriteList_outside _ ha, rfl⟩
    · rw [show memRead _ (indexBase s) = _ from digit 0 (by decide), digit 1 (by decide), digit 2 (by decide)]
      exact bcdDigits_weighed _
    · rw [digit k (by omega)]
      exact bcdDigits_le_nine (List.getElem_mem _)
  · omega

/-- Settles O36: the `k`-th stored byte is `V[k]`. -/
theorem storeRegistersWritesTheRange : Obligations.StoreRegistersWritesTheRange := by
  intro x s hm hi
  have hlen := regBytes_length s x
  rcases exec_storeRegs_cases s x with ⟨-, e⟩ | ⟨hout, -⟩
  · refine ⟨_, e, fun k hk => ?_, fun a ha => memRead_memWriteList_outside _ ?_, rfl⟩
    · exact (memRead_memWriteList_inside hm (by omega) (by omega)).trans (regBytes_getElem s x k (by omega))
    · simp only [indexBase] at ha
      omega
  · omega

/-- Fx65 puts the `k`-th byte read into `V[k]` (R146). -/
theorem getV_loadBytes {s : State} {bs : List Byte} {k : Nibble} (hk : k.toNat < bs.length) :
    getV { s with v := loadBytes s.v bs } k = bs[k.toNat] :=
  (loadBytes_getElem s.v bs k.toNat k.isLt).trans (List.getD_eq_getElem _ _ hk)

/-- Settles O37: the registers of the range hold the bytes read, the others are not reached. -/
theorem loadRegistersReadsTheRange : Obligations.LoadRegistersReadsTheRange := by
  intro x s hi
  have hlen := memReadList_length s.mem s.i.toNat (x.toNat + 1)
  rcases exec_loadRegs_cases s x with ⟨-, e⟩ | ⟨hout, -⟩
  · refine ⟨_, e, fun k hk => ?_, fun k hk => getV_loadBytes_above (by omega), rfl⟩
    exact (getV_loadBytes (by omega)).trans (memReadList_getElem ..)
  · omega

/-! ## The loops of R151 compute the mask of R152 -/

/-- The mask of the rows that the outer loop draws from sprite row `r` on: some byte of them falls on the row and covers the
column. -/
def RowsCover (x0 y0 r : Nat) (bs : List Byte) (row : Fin 32) (col : Fin 64) : Prop :=
  ∃ k : Fin bs.length, row = wrapRow y0 (r + k) ∧ byteCovers x0 bs[k] col = true

theorem not_rowsCover_nil {x0 y0 r : Nat} {row : Fin 32} {col : Fin 64} : ¬ RowsCover x0 y0 r [] row col :=
  fun ⟨k, _⟩ => k.elim0

theorem rowsCover_cons {x0 y0 r : Nat} {b : Byte} {bs : List Byte} {row : Fin 32} {col : Fin 64} :
    RowsCover x0 y0 r (b :: bs) row col ↔
      (row = wrapRow y0 r ∧ byteCovers x0 b col = true) ∨ RowsCover x0 y0 (r + 1) bs row col := by
  have hrow (k : Nat) : r + 1 + k = r + (k + 1) := by omega
  simp only [RowsCover, hrow]
  exact Fin.exists_fin_succ

/-- Up to 32 neighbouring rows are all different modulo 32, so no later byte falls on the first one's row. -/
theorem not_rowsCover_first {x0 y0 r : Nat} {bs : List Byte} {col : Fin 64} (h : bs.length < 32) :
    ¬ RowsCover x0 y0 (r + 1) bs (wrapRow y0 r) col := by
  rintro ⟨k, hk, -⟩
  have := k.isLt
  have := congrArg Fin.val hk
  simp only [wrapRow, Fin.ofNat] at this
  omega

/-- The outer loop flips exactly the pixels its rows cover: no pixel is met twice. -/
theorem getPixel_drawRows {x0 y0 r : Nat} {bs : List Byte} (hb : bs.length ≤ 32) (acc : Pixels × Bool) (row : Fin 32)
    (col : Fin 64) : getPixel (drawRows x0 y0 r bs acc).1 row col = true ↔
      ¬ (getPixel acc.1 row col = true ↔ RowsCover x0 y0 r bs row col) := by
  induction bs generalizing r acc with
  | nil => simp [drawRows, not_rowsCover_nil]
  | cons b bs ih =>
    have hb' : bs.length < 32 := hb
    rw [drawRows, ih hb'.le, getPixel_drawByte, rowsCover_cons]
    by_cases hrow : row = wrapRow y0 r
    · subst hrow
      cases getPixel acc.1 (wrapRow y0 r) col <;> simp [not_rowsCover_first hb']
    · simp [hrow]

/-- The outer loop is a hit exactly when its rows cover a pixel that was lit before it. -/
theorem hit_drawRows {x0 y0 r : Nat} {bs : List Byte} (hb : bs.length ≤ 32) (acc : Pixels × Bool) :
    (drawRows x0 y0 r bs acc).2 = true ↔
      acc.2 = true ∨ ∃ row col, getPixel acc.1 row col = true ∧ RowsCover x0 y0 r bs row col := by
  induction bs generalizing r acc with
  | nil => simp [drawRows, not_rowsCover_nil]
  | cons b bs ih =>
    have hb' : bs.length < 32 := hb
    have later (row : Fin 32) (col : Fin 64) (hc : RowsCover x0 y0 (r + 1) bs row col) :
        getPixel (drawByte (wrapRow y0 r) x0 b acc).1 row col = getPixel acc.1 row col := by
      have hrow : row ≠ wrapRow y0 r := fun h => not_rowsCover_first hb' (h ▸ hc)
      simp [getPixel_drawByte, hrow]
    rw [drawRows, ih hb'.le, hit_drawByte, or_assoc]
    refine or_congr_right ⟨?_, ?_⟩
    · rintro (⟨col, hlit, hc⟩ | ⟨row, col, hlit, hc⟩)
      · exact ⟨_, col, hlit, rowsCover_cons.2 (.inl ⟨rfl, hc⟩)⟩
      · exact ⟨row, col, later row col hc ▸ hlit, rowsCover_cons.2 (.inr hc)⟩
    · rintro ⟨row, col, hlit, hc⟩
      rcases rowsCover_cons.1 hc with ⟨rfl, hfirst⟩ | hlater
      · exact .inl ⟨col, hlit, hfirst⟩
      · exact .inr ⟨row, col, (later row col hlater).trans hlit, hlater⟩

theorem byteCovers_iff {x0 : Nat} {b : Byte} {col : Fin 64} :
    byteCovers x0 b col = true ↔ ∃ c : Fin 8, col.val = (x0 + c.val) % 64 ∧ b.getLsbD (7 - c.val) = true := by
  simp only [byteCovers, List.any_eq_true, List.mem_range, Bool.and_eq_true, decide_eq_true_eq, Fin.ext_iff,
    Fin.exists_iff, exists_prop, wrapCol, Fin.ofNat, spriteBit]

/-- Drawn from its first row on, a sprite's mask is that of R152. -/
theorem rowsCover_zero_iff {x0 y0 : Byte} {rows : List Byte} {row : Fin 32} {col : Fin 64} :
    RowsCover x0.toNat y0.toNat 0 rows row col ↔ Covered x0 y0 rows row col := by
  simp only [RowsCover, byteCovers_iff, Covered, Fin.ext_iff, wrapRow, Fin.ofNat, Nat.zero_add, exists_and_left]

/-- The draw of R151 flips exactly the pixels that the mask of R152 covers. -/
theorem getPixel_drawSprite {fb : Pixels} {x0 y0 : Byte} {rows : List Byte} (h : rows.length ≤ 32) (row : Fin 32)
    (col : Fin 64) : getPixel (drawSprite fb x0 y0 rows).1 row col = true ↔
      ¬ (getPixel fb row col = true ↔ Covered x0 y0 rows row col) := by
  rw [drawSprite, getPixel_drawRows h, rowsCover_zero_iff]

/-- The draw of R151 is a hit exactly when the mask of R152 covers a lit pixel. -/
theorem hit_drawSprite {fb : Pixels} {x0 y0 : Byte} {rows : List Byte} (h : rows.length ≤ 32) :
    (drawSprite fb x0 y0 rows).2 = true ↔
      ∃ row col, getPixel fb row col = true ∧ Covered x0 y0 rows row col := by
  simp only [drawSprite, hit_drawRows h, rowsCover_zero_iff, Bool.false_eq_true, false_or]

theorem flagByte_eq_ite {c : Bool} {p : Prop} [Decidable p] (h : c = true ↔ p) :
    flagByte c = if p then 0x01#8 else 0x00#8 := if_congr h rfl rfl

/-- Settles O41: the completed draw is `drawSprite` on the bytes at `I`, at most 15 of them, and then the flag. -/
theorem drawXorsTheSpriteAndFlagsCollision : Obligations.DrawXorsTheSpriteAndFlagsCollision := by
  intro x y n s hfit
  have hrows : (memReadList s.mem s.i.toNat n.toNat).length ≤ 32 := by
    have := n.isLt
    rw [memReadList_length]
    omega
  rcases exec_drw_cases s x y n with ⟨-, e⟩ | ⟨h0, hout, -⟩
  · refine ⟨_, e, getPixel_drawSprite hrows, ?_, fun k hk => ?_, rfl⟩
    · exact (getV_setFlag ..).trans ((if_pos rfl).trans (flagByte_eq_ite (hit_drawSprite hrows)))
    · exact (getV_setFlag ..).trans (if_neg hk)
  · omega

end Sys2Proof.Machine
end

section
/-! PROOFS. The statements about encoding (30_encoding.md): the decoder and the encoder are inverse to each other, the words
that no instruction has are those of the class table R76, the decoder and the opcode table R75 agree, and where the fields of
a word lie. -/

namespace Sys2Proof

/-! ## What decoding a word can do (R75, R76)

Every word is either the word of what it decodes to, or an unknown opcode of the class table: one lemma per class that has
fixed bits below the class nibble, then the dispatch on the class. -/

/-- The class table of R76: the words that match no row of the opcode table. -/
def UnknownByClass (w : Word) : Prop :=
  (nib1 w = 0x0#4 ∧ w ≠ 0x00E0#16 ∧ w ≠ 0x00EE#16) ∨
  (nib1 w = 0x5#4 ∧ nib4 w ≠ 0#4) ∨
  (nib1 w = 0x8#4 ∧ nib4 w ∈ [0x8#4, 0x9#4, 0xA#4, 0xB#4, 0xC#4, 0xD#4, 0xF#4]) ∨
  (nib1 w = 0x9#4 ∧ nib4 w ≠ 0#4) ∨
  (nib1 w = 0xE#4 ∧ fieldKk w ∉ [0x9E#8, 0xA1#8]) ∨
  (nib1 w = 0xF#4 ∧
    fieldKk w ∉ [0x07#8, 0x0A#8, 0x15#8, 0x18#8, 0x1E#8, 0x29#8, 0x33#8, 0x55#8, 0x65#8])

/-- The decoder's answer on `w` is an instruction whose word is `w`, or the error of an unknown opcode of the class table. -/
def AnswersFor (w : Word) (r : Except DecodeError Instr) : Prop :=
  (∃ i, r = .ok i ∧ encode i = w) ∨ (r = .error (.unknownOpcode w) ∧ UnknownByClass w)

theorem answersFor_ok {w : Word} {i : Instr} (h : encode i = w) : AnswersFor w (.ok i) := .inl ⟨i, rfl, h⟩

theorem answersFor_unknown {w : Word} (h : UnknownByClass w) : AnswersFor w (.error (.unknownOpcode w)) := .inr ⟨rfl, h⟩

theorem encNnn_of_class {w : Word} {c : Nibble} (hc : nib1 w = c) : encNnn c (fieldNnn w) = w := by
  rw [← hc, encNnn_fields]

theorem encXkk_of_class {w : Word} {c : Nibble} (hc : nib1 w = c) : encXkk c (fieldX w) (fieldKk w) = w := by
  rw [← hc, encXkk_fields]

theorem encXkk_of_low {w : Word} {c : Nibble} {kk : Byte} (hc : nib1 w = c) (hk : fieldKk w = kk) :
    encXkk c (fieldX w) kk = w := by
  rw [← hk, encXkk_of_class hc]

theorem encXyn_of_last {w : Word} {c n : Nibble} (hc : nib1 w = c) (hn : nib4 w = n) :
    encXyn c (fieldX w) (fieldY w) n = w := by
  rw [← hc, ← hn, encXyn_fields]

theorem decodeClass0_answers {w : Word} (hc : nib1 w = 0x0#4) : AnswersFor w (decodeClass0 w) := by
  unfold decodeClass0
  split
  · exact answersFor_ok (Eq.symm ‹_›)
  · split
    · exact answersFor_ok (Eq.symm ‹_›)
    · exact answersFor_unknown (.inl ⟨hc, ‹_›, ‹_›⟩)

theorem decodeLastZero_answers {w : Word} {i : Instr} (hi : nib4 w = 0x0#4 → encode i = w)
    (hu : nib4 w ≠ 0x0#4 → UnknownByClass w) : AnswersFor w (decodeLastZero w i) := by
  unfold decodeLastZero
  split
  · exact answersFor_ok (hi ‹_›)
  · exact answersFor_unknown (hu ‹_›)

/-- The last nibbles that select no row of class 8 (R76). -/
theorem nibble_class8_unknown (n : Nibble) (h : n ≠ 0x0#4 ∧ n ≠ 0x1#4 ∧ n ≠ 0x2#4 ∧ n ≠ 0x3#4 ∧ n ≠ 0x4#4 ∧ n ≠ 0x5#4 ∧
    n ≠ 0x6#4 ∧ n ≠ 0x7#4 ∧ n ≠ 0xE#4) : n ∈ [0x8#4, 0x9#4, 0xA#4, 0xB#4, 0xC#4, 0xD#4, 0xF#4] := by
  revert n; decide

theorem decodeClass8_answers {w : Word} (hc : nib1 w = 0x8#4) : AnswersFor w (decodeClass8 w) := by
  unfold decodeClass8
  split
  case h_10 => exact answersFor_unknown (.inr (.inr (.inl ⟨hc, nibble_class8_unknown _ (by simp_all)⟩)))
  all_goals exact answersFor_ok (encXyn_of_last hc ‹_›)

theorem decodeClassE_answers {w : Word} (hc : nib1 w = 0xE#4) : AnswersFor w (decodeClassE w) := by
  unfold decodeClassE
  split
  case h_3 => exact answersFor_unknown (.inr (.inr (.inr (.inr (.inl ⟨hc, by simp_all⟩)))))
  all_goals exact answersFor_ok (encXkk_of_low hc ‹_›)

theorem decodeClassF_answers {w : Word} (hc : nib1 w = 0xF#4) : AnswersFor w (decodeClassF w) := by
  unfold decodeClassF
  split
  case h_10 => exact answersFor_unknown (.inr (.inr (.inr (.inr (.inr ⟨hc, by simp_all⟩)))))
  all_goals exact answersFor_ok (encXkk_of_low hc ‹_›)

/-- What the decoder can do with a word, said once. -/
theorem decodeWord_answers (w : Word) : AnswersFor w (decodeWord w) := by
  unfold decodeWord
  split <;> rename_i hc
  -- class 0
  case h_1 => exact decodeClass0_answers hc
  -- class 5
  case h_6 =>
    exact decodeLastZero_answers (fun hn => encXyn_of_last hc hn) fun hn => .inr (.inl ⟨hc, hn⟩)
  -- class 8
  case h_9 => exact decodeClass8_answers hc
  -- class 9
  case h_10 =>
    exact decodeLastZero_answers (fun hn => encXyn_of_last hc hn) fun hn => .inr (.inr (.inr (.inl ⟨hc, hn⟩)))
  -- class D
  case h_14 => exact answersFor_ok (encXyn_of_last hc rfl)
  -- class E
  case h_15 => exact decodeClassE_answers hc
  -- class F
  case h_16 => exact decodeClassF_answers (nibble_last _ (by simp_all))
  -- classes 1, 2, A, B: format F_NNN
  case h_2 | h_3 | h_11 | h_12 => exact answersFor_ok (encNnn_of_class hc)
  -- classes 3, 4, 6, 7, C: format F_XKK
  case h_4 | h_5 | h_7 | h_8 | h_13 => exact answersFor_ok (encXkk_of_class hc)

/-- A word decodes to an instruction exactly when it is the instruction's word. -/
theorem decodeWord_ok_iff {w : Word} {i : Instr} : decodeWord w = .ok i ↔ encode i = w := by
  refine ⟨fun h => ?_, fun h => h ▸ Machine.decodeWord_encode i⟩
  rcases decodeWord_answers w with ⟨j, hj, he⟩ | ⟨hu, -⟩
  · rwa [Except.ok.inj (h.symm.trans hj)]
  · cases h.symm.trans hu

/-- No instruction's word is in the class table of R76. -/
theorem not_unknownByClass_encode (i : Instr) : ¬ UnknownByClass (encode i) := by
  unfold UnknownByClass
  cases i
  case cls | ret => decide
  all_goals simp [encode]

theorem decodeWord_unknown_iff {w : Word} : decodeWord w = .error (.unknownOpcode w) ↔ UnknownByClass w := by
  rcases decodeWord_answers w with ⟨i, hi, rfl⟩ | ⟨hu, hc⟩
  · simp [hi, not_unknownByClass_encode]
  · simp [hu, hc]

theorem exists_decodeWord_ok_iff {w : Word} : (∃ i, decodeWord w = .ok i) ↔ ¬ UnknownByClass w := by
  rcases decodeWord_answers w with ⟨i, hi, rfl⟩ | ⟨hu, hc⟩
  · simp [hi, not_unknownByClass_encode]
  · simp [hu, hc]

/-- Settles O2: the word of the two bytes is the instruction's word, which the decoder takes back to the instruction. -/
theorem decodeOfEncode : Obligations.DecodeOfEncode := by
  intro i rest
  refine ⟨Machine.decodeWord_encode i, ?_⟩
  simp [encodeBytes, decode, Machine.decodeWord_encode]

/-- Settles O3: the word's fields are all that its class does not fix, so they put the word together again. -/
theorem encodeOfDecode : Obligations.EncodeOfDecode := fun _ _ => decodeWord_ok_iff.1

/-- Settles O5: a word outside the class table decodes, and no instruction's word lies in it. -/
theorem unknownWordsByClass : Obligations.UnknownWordsByClass := fun _ => decodeWord_unknown_iff

/-! ## The decoder and the opcode table (R74, R75, R94)

The mask of a row is fixed by the class of its pattern. So a word selects a row exactly when the bits that its own class
fixes are the row's pattern, and these bits alone decide whether the word is known. -/

/-- The bits that the rows of a class fix (R74). -/
def classMask : Nibble → Word
  | 0x0#4 => 0xFFFF#16
  | 0x5#4 | 0x8#4 | 0x9#4 => 0xF00F#16
  | 0xE#4 | 0xF#4 => 0xF0FF#16
  | _ => 0xF000#16

/-- The word with the operands of its class cleared. -/
def fixedBits (w : Word) : Word := w &&& classMask (nib1 w)

theorem mask_eq_classMask : ∀ r ∈ opcodeTable, r.mask = classMask (nib1 r.pat) := by decide

theorem nib1_and_classMask (w : Word) (c : Nibble) : nib1 (w &&& classMask c) = nib1 w := by
  have hkeep : nib1 (classMask c) = BitVec.allOnes 4 := by revert c; decide
  calc nib1 (w &&& classMask c) = nib1 w &&& nib1 (classMask c) := BitVec.extractLsb'_and ..
    _ = nib1 w := by rw [hkeep, BitVec.and_allOnes]

theorem selects_iff_fixedBits {r : OpcodeRow} (hr : r ∈ opcodeTable) (w : Word) :
    r.selects w = true ↔ fixedBits w = r.pat := by
  rw [OpcodeRow.selects, beq_iff_eq, mask_eq_classMask r hr, fixedBits]
  constructor <;> intro h
  · have hc : nib1 r.pat = nib1 w := by rw [← h, nib1_and_classMask]
    rwa [hc] at h
  · rw [← h, nib1_and_classMask]

theorem fixedBits_of_full {w : Word} (h : classMask (nib1 w) = 0xFFFF#16) : fixedBits w = w := by
  rw [fixedBits, h, mask_word_full]

theorem fixedBits_of_last {w : Word} (h : classMask (nib1 w) = 0xF00F#16) :
    fixedBits w = encXyn (nib1 w) 0#4 0#4 (nib4 w) := by
  rw [fixedBits, h, mask_word_last]

theorem fixedBits_of_low {w : Word} (h : classMask (nib1 w) = 0xF0FF#16) :
    fixedBits w = encXkk (nib1 w) 0#4 (fieldKk w) := by
  rw [fixedBits, h, mask_word_low]

theorem fixedBits_of_class {w : Word} (h : classMask (nib1 w) = 0xF000#16) : fixedBits w = encNnn (nib1 w) 0#12 := by
  rw [fixedBits, h, mask_word_class]

/-- Clearing the operands makes no unknown word known: every clause of the class table speaks of fixed bits alone. -/
theorem unknownByClass_fixedBits {w : Word} (h : UnknownByClass w) : UnknownByClass (fixedBits w) := by
  have hu := h
  rcases h with ⟨hc, -⟩ | ⟨hc, -⟩ | ⟨hc, -⟩ | ⟨hc, -⟩ | ⟨hc, -⟩ | ⟨hc, -⟩
  case inl => rwa [fixedBits_of_full (by rw [hc]; rfl)]
  case inr.inl | inr.inr.inl | inr.inr.inr.inl =>
    rw [fixedBits_of_last (by rw [hc]; rfl)]
    simpa [UnknownByClass, hc] using hu
  case inr.inr.inr.inr.inl | inr.inr.inr.inr.inr =>
    rw [fixedBits_of_low (by rw [hc]; rfl)]
    simpa [UnknownByClass, hc] using hu

theorem not_unknownByClass_pat : ∀ r ∈ opcodeTable, ¬ UnknownByClass r.pat := by
  unfold UnknownByClass
  decide

theorem opcodeTable_pat_nodup : (opcodeTable.map OpcodeRow.pat).Nodup := by decide

/-- The fixed bits of an instruction's word are the pattern of the row with its mnemonic. -/
theorem exists_row_of_encode (i : Instr) :
    ∃ r ∈ opcodeTable, fixedBits (encode i) = r.pat ∧ r.mnemonic = i.mnemonic := by
  cases i
  case cls | ret => decide
  all_goals
    simp (disch := simp [classMask]) only [encode, Instr.mnemonic, fixedBits_of_last, fixedBits_of_low, fixedBits_of_class,
      nib1_encNnn, nib1_encXkk, nib1_encXyn, fieldKk_encXkk, nib4_encXyn]
    decide

/-- Settles O4: selecting a row means that the word's fixed bits are the row's pattern, and no two rows have one pattern. -/
theorem decoderFollowsOpcodeTable : Obligations.DecoderFollowsOpcodeTable := by
  refine fun w => ⟨fun i h => ?_, ?_, fun r hr r' hr' h h' => ?_⟩
  · obtain ⟨r, hr, hpat, hname⟩ := exists_row_of_encode i
    exact ⟨r, hr, (selects_iff_fixedBits hr w).2 (decodeWord_ok_iff.1 h ▸ hpat), hname⟩
  · rintro ⟨r, hr, hsel⟩
    refine exists_decodeWord_ok_iff.2 fun hu => not_unknownByClass_pat r hr ?_
    rw [← (selects_iff_fixedBits hr w).1 hsel]
    exact unknownByClass_fixedBits hu
  · rw [selects_iff_fixedBits hr] at h
    rw [selects_iff_fixedBits hr'] at h'
    exact List.inj_on_of_nodup_map opcodeTable_pat_nodup hr hr' (h.symm.trans h')

/-! ## The fields of a word (R71) -/

theorem nib1_toNat (w : Word) : (nib1 w).toNat = w.toNat / 4096 := by
  have := w.isLt
  simp only [nib1, BitVec.extractLsb'_toNat, Nat.shiftRight_eq_div_pow]
  omega

theorem nib2_toNat (w : Word) : (nib2 w).toNat = w.toNat / 256 % 16 := by
  simp [nib2, Nat.shiftRight_eq_div_pow]

theorem nib3_toNat (w : Word) : (nib3 w).toNat = w.toNat / 16 % 16 := by
  simp [nib3, Nat.shiftRight_eq_div_pow]

theorem nib4_toNat (w : Word) : (nib4 w).toNat = w.toNat % 16 := by simp [nib4]

theorem fieldKk_toNat (w : Word) : (fieldKk w).toNat = 16 * (nib3 w).toNat + (nib4 w).toNat := by
  have h : (fieldKk w).toNat = w.toNat % 256 := by simp [fieldKk]
  rw [h, nib3_toNat, nib4_toNat]
  omega

theorem fieldNnn_toNat (w : Word) :
    (fieldNnn w).toNat = 256 * (nib2 w).toNat + 16 * (nib3 w).toNat + (nib4 w).toNat := by
  have h : (fieldNnn w).toNat = w.toNat % 4096 := by simp [fieldNnn]
  rw [h, nib2_toNat, nib3_toNat, nib4_toNat]
  omega

theorem highByte_toNat (w : Word) : (highByte w).toNat = 16 * (nib1 w).toNat + (nib2 w).toNat := by
  have := w.isLt
  have h : (highByte w).toNat = w.toNat / 256 % 256 := by simp [highByte, Nat.shiftRight_eq_div_pow]
  rw [h, nib1_toNat, nib2_toNat]
  omega

theorem lowByte_toNat (w : Word) : (lowByte w).toNat = 16 * (nib3 w).toNat + (nib4 w).toNat := fieldKk_toNat w

/-- A fetch that succeeds gives the big-endian word of the two bytes at `PC` (R52, R91). -/
theorem fetchWord_ok {s : Machine.State} {w : Word} (h : Machine.fetchWord s = .ok w) :
    Machine.memRead s.mem s.pc.toNat = highByte w ∧ Machine.memRead s.mem (s.pc.toNat + 1) = lowByte w := by
  rcases Machine.fetchWord_cases s with ⟨-, hf⟩ | ⟨-, hf⟩
  · cases h.symm.trans hf
    simp
  · cases h.symm.trans hf

/-- Settles O6: the fields as quotients and remainders of the word, and the word fetched as its two bytes in memory. -/
theorem decoderFieldsOfEveryWord : Obligations.DecoderFieldsOfEveryWord := by
  refine ⟨fun w => ⟨nib1_toNat w, nib2_toNat w, nib3_toNat w, nib4_toNat w, rfl, rfl, rfl, fieldKk_toNat w,
    fieldNnn_toNat w⟩, fun s w h => ?_⟩
  obtain ⟨hhi, hlo⟩ := fetchWord_ok h
  rw [hhi, hlo]
  exact ⟨highByte_toNat w, lowByte_toNat w⟩

/-- Settles O1: each word's class nibble and fixed bits select its row by evaluation. -/
theorem specWordsDecode : Obligations.SpecWordsDecode := by
  unfold Obligations.SpecWordsDecode
  decide

end Sys2Proof
end

section
/-! PROOFS. The statements about the step (40_step_decode_dispatch.md): everything one step can do, said once in the order
of its phases, and what the fetch, the decoder, the instructions and the block each contribute to it. -/

namespace Sys2Proof.Machine

/-! ## The fetch (R91) -/

/-- A word is the big-endian value of its two bytes (R52). -/
theorem toNat_of_bytes (w : Word) : w.toNat = 256 * (highByte w).toNat + (lowByte w).toNat := by
  rw [highByte_toNat, lowByte_toNat, nib1_toNat, nib2_toNat, nib3_toNat, nib4_toNat]
  omega

theorem fetchWord_inside {s : State} (hpc : s.pc.toNat ≤ 4094) : fetchWord s = .ok (wordAtPc s) := by
  rcases fetchWord_cases s with ⟨-, hf⟩ | ⟨hout, -⟩
  · exact hf
  · omega

/-- The bounds error of the fetch, with the lowest address of the two that lies above 4095. -/
def fetchError (s : State) : Fault := .memoryOutOfBounds (if s.pc.toNat = 4095 then 4096#16 else s.pc)

theorem fetchWord_outside {s : State} (hpc : 4094 < s.pc.toNat) : fetchWord s = .error (fetchError s) := by
  rcases fetchWord_cases s with ⟨hin, -⟩ | ⟨-, hf⟩
  · omega
  · rw [hf, fetchError]
    by_cases h : s.pc.toNat = 4095
    · simp [h]
    · rw [if_neg h, if_neg (by omega), BitVec.ofNat_toNat, BitVec.setWidth_eq]

/-! ## The decoder in a step (R93 to R95) -/

/-- A word passes the check on words exactly when it decodes (R75, R76). -/
theorem wordWf_iff_decodes {w : Word} : wordWf w = true ↔ ∃ i, decodeWord w = .ok i := by
  obtain ⟨hrow, hdec, -⟩ := decoderFollowsOpcodeTable w
  rw [wordWf, List.any_eq_true]
  refine ⟨hdec, fun ⟨i, hi⟩ => ?_⟩
  obtain ⟨r, hr, hsel, -⟩ := hrow i hi
  exact ⟨r, hr, hsel⟩

theorem wordWf_eq_false_iff {w : Word} : wordWf w = false ↔ ∀ r ∈ opcodeTable, r.selects w = false := by
  simp only [wordWf, List.any_eq_false, Bool.not_eq_true]

/-- A word either decodes, or fails the check on words and is answered as an unknown opcode. -/
theorem decodeWord_cases (w : Word) :
    (∃ i, decodeWord w = .ok i) ∨ (wordWf w = false ∧ decodeWord w = .error (.unknownOpcode w)) := by
  rcases decodeWord_answers w with ⟨i, hi, -⟩ | ⟨hu, -⟩
  · exact .inl ⟨i, hi⟩
  · refine .inr ⟨?_, hu⟩
    rw [← Bool.not_eq_true, wordWf_iff_decodes, hu]
    exact nofun

theorem decodeWord_of_decode {hi lo : Byte} {i : Instr} (h : decode [hi, lo] = .ok (i, [])) :
    decodeWord (wordOfBytes hi lo) = .ok i := by
  cases hd : decodeWord (wordOfBytes hi lo) <;> simp [decode, hd] at h
  exact congrArg _ h

/-! ## Everything a step can do (R90 to R98) -/

theorem step_fetchError {s : State} (hpc : 4094 < s.pc.toNat) : step s = .fault (fetchError s) := by
  simp only [step, fetchWord_outside hpc, raise_eq]

theorem step_unknownOpcode {s : State} (hpc : s.pc.toNat ≤ 4094) (hw : wordWf (wordAtPc s) = false) :
    step s = .fault (.unknownOpcode (wordAtPc s)) := by
  rcases decodeWord_cases (wordAtPc s) with hok | ⟨-, hu⟩
  · simp [wordWf_iff_decodes.2 hok] at hw
  · simp only [step, fetchWord_inside hpc, hu, raise_eq]

/-- The three ways of a step, in the order of its phases: the fetch fails, the word is unknown, or its instruction runs. -/
theorem step_cases (s : State) :
    (4094 < s.pc.toNat ∧ step s = .fault (fetchError s)) ∨
    (s.pc.toNat ≤ 4094 ∧ wordWf (wordAtPc s) = false ∧ step s = .fault (.unknownOpcode (wordAtPc s))) ∨
    (∃ i, Fetches s i ∧ step s = exec i (advance s)) := by
  rcases Nat.lt_or_ge 4094 s.pc.toNat with hout | hin
  · exact .inl ⟨hout, step_fetchError hout⟩
  rcases decodeWord_cases (wordAtPc s) with ⟨i, hi⟩ | ⟨hw, -⟩
  · exact .inr (.inr ⟨i, ⟨hin, hi⟩, step_of_decode hin hi⟩)
  · exact .inr (.inl ⟨hin, hw, step_unknownOpcode hin hw⟩)

/-- The errors an instruction can raise (R98). -/
theorem exec_fault {i : Instr} {s : State} {e : Fault} (h : exec i s = .fault e) :
    e = .stackOverflow ∨ e = .stackUnderflow ∨ ∃ a, e = .memoryOutOfBounds a := by
  rcases exec_outcome s i with ⟨t, ho⟩ | ⟨-, -, ho⟩ | ⟨-, -, ho⟩ | ⟨-, -, ho⟩ <;> cases h.symm.trans ho
  · exact .inl rfl
  · exact .inr (.inl rfl)
  · exact .inr (.inr ⟨_, rfl⟩)

theorem exec_ne_refused (i : Instr) (s : State) (r : Refusal) : exec i s ≠ .refused r := by
  rcases exec_outcome s i with ⟨t, ho⟩ | ⟨-, -, ho⟩ | ⟨-, -, ho⟩ | ⟨-, -, ho⟩ <;> rw [ho] <;> nofun

/-- Settles O12: the three ways of a step, the third with the instruction's own errors. -/
theorem stepErrorsInPhaseOrder : Obligations.StepErrorsInPhaseOrder := by
  intro s
  rcases step_cases s with ⟨hpc, h⟩ | ⟨hpc, hw, h⟩ | ⟨i, hi, h⟩ <;> rw [h]
  · exact ⟨fun e he => .inl ⟨hpc, (Host.Outcome.fault.inj he).symm⟩, nofun⟩
  · exact ⟨fun e he => .inr (.inl ⟨hpc, hw, (Host.Outcome.fault.inj he).symm⟩), nofun⟩
  · exact ⟨fun e he => .inr (.inr ⟨i, hi, he, exec_fault he⟩), exec_ne_refused i _⟩

/-- Settles O16: of the outcomes of an instruction, each error needs a check that fails. -/
theorem everyInstructionCompletesWhereItsCheckPasses : Obligations.EveryInstructionCompletesWhereItsCheckPasses := by
  intro i s hcall hret hfit
  rcases exec_outcome s i with hnext | ⟨⟨nnn, hi⟩, hsp, -⟩ | ⟨hi, hsp, -⟩ | ⟨h0, hout, -⟩
  · exact hnext
  · exact absurd hsp (hcall nnn hi)
  · exact absurd hsp (hret hi)
  · omega

/-- Settles O8: the advanced `PC` does not wrap, because the fetch is inside memory. -/
theorem stepRunsDecodedInstruction : Obligations.StepRunsDecodedInstruction := fun _ _ hpc hd =>
  ⟨_, advance_pc_toNat hpc, step_of_decode hpc (decodeWord_of_decode hd)⟩

/-! ## The `Step` transaction on an error (R97, R177) -/

/-- The host is told of an error exactly where the step raises it, and the machine is then what it was. -/
theorem perform_step_error_iff {s : State} {b : Block} {e : Fault} :
    perform (some s) .step = some (b, .error e) ↔ b = some s ∧ step s = .fault e := by
  simp only [perform, stepResponse]
  cases step s <;> simp [eq_comm]

theorem perform_step_of_fault {s : State} {e : Fault} (h : step s = .fault e) :
    perform (some s) .step = some (some s, .error e) := perform_step_error_iff.2 ⟨rfl, h⟩

/-- Settles O7: the word fetched is the big-endian value of its bytes, and a fetch that fails ends the step. -/
theorem fetchBigEndianOrOutOfBounds : Obligations.FetchBigEndianOrOutOfBounds := by
  intro s
  refine ⟨fun hpc => ⟨_, fetchWord_inside hpc, ?_⟩, fun hpc => ?_, fun hpc => ?_⟩
  · obtain ⟨hhi, hlo⟩ := fetchWord_ok (fetchWord_inside hpc)
    rw [hhi, hlo]
    exact toNat_of_bytes _
  · have h := step_fetchError (s := s) (by omega)
    rw [fetchError, if_pos hpc] at h
    exact ⟨h, perform_step_of_fault h⟩
  · have h := step_fetchError (s := s) (by omega)
    rw [fetchError, if_neg (by omega)] at h
    exact ⟨h, perform_step_of_fault h⟩

/-- Settles O10: a word that selects no row fails the check on words, and the step then raises it. -/
theorem unknownWordIsReported : Obligations.UnknownWordIsReported := fun _ hpc hrows =>
  perform_step_of_fault (step_unknownOpcode hpc (wordWf_eq_false_iff.2 hrows))

/-- Settles O11: the machine after the error is the one before it, so the next `Step` is the same. -/
theorem failedStepChangesNothingAndRepeats : Obligations.FailedStepChangesNothingAndRepeats := by
  intro s b e h
  obtain ⟨rfl, -⟩ := perform_step_error_iff.1 h
  exact ⟨rfl, h⟩

/-! ## Bnnn (R108) -/

/-- Settles O23: the sum of a 12-bit and an 8-bit number fits in 16 bits, and the next step fetches at it. -/
theorem jumpWithOffsetIsNotReduced : Obligations.JumpWithOffsetIsNotReduced := by
  intro nnn s
  have hsum := zext12_add_zext8_toNat nnn (getV s v0)
  refine ⟨_, exec_jpV0 s nnn, hsum, ?_, rfl, step_fetchError⟩
  have := nnn.isLt
  have := (getV s v0).isLt
  rw [jumpTo_pc, hsum]
  omega

end Sys2Proof.Machine
end

section
/-! PROOFS. The statements about control transfer (41_control_transfer.md): the word of a jump, the jump itself, the return
after a call, and the skips. -/

namespace Sys2Proof

/-! ## The words of a class that fixes its first nibble alone (R74) -/

/-- The bits under the class mask are the class. -/
theorem nib1_of_mask_class {w v : Word} (h : w &&& 0xF000#16 = v) : nib1 w = nib1 v := by
  rw [← h, mask_word_class, nib1_encNnn]

theorem fieldNnn_toNat_mod (w : Word) : (fieldNnn w).toNat = w.toNat % 4096 := by
  rw [fieldNnn_toNat, nib2_toNat, nib3_toNat, nib4_toNat]
  omega

/-- Every word of class 1 is a jump to its low 12 bits (R101). -/
theorem decodeWord_of_class1 {w : Word} (h : w &&& 0xF000#16 = 0x1000#16) : decodeWord w = .ok (.jp (fieldNnn w)) :=
  decodeWord_ok_iff.2 (encNnn_of_class (nib1_of_mask_class h))

end Sys2Proof

namespace Sys2Proof.Machine

/-! ## 1nnn (R101) -/

/-- A jump back to the address a step started at undoes the advance of that step (R92). -/
theorem jumpTo_pc_advance (s : State) : jumpTo s.pc (advance s) = s := rfl

theorem zext12_eq_pc {nnn : Addr12} {s : State} (h : nnn.toNat = s.pc.toNat) : zext12 nnn = s.pc :=
  BitVec.eq_of_toNat_eq ((zext12_toNat nnn).trans h)

/-- The word at 0xFFF would need a byte at 4096, so the fetch there fails (R91). -/
theorem step_at_lastByte {s : State} (hpc : s.pc.toNat = 4095) : step s = .fault (.memoryOutOfBounds 4096#16) := by
  rw [step_fetchError (by omega), fetchError, if_pos hpc]

/-- Settles O17: a jump writes `PC` alone, unchecked, and a jump to its own address undoes the advance of its step. -/
theorem jumpGoesToItsAddress : Obligations.JumpGoesToItsAddress := by
  refine ⟨fun w h => ⟨_, fieldNnn_toNat_mod w, decodeWord_of_class1 h⟩, fun nnn s => ?_, fun nnn s ⟨hpc, hd⟩ hself => ?_⟩
  · refine ⟨_, exec_jp s nnn, zext12_toNat nnn, rfl, ?_⟩
    rintro rfl
    exact step_at_lastByte (zext12_toNat 0xFFF#12)
  · rw [step_of_decode hpc hd, exec_jp, zext12_eq_pc hself, jumpTo_pc_advance]

/-! ## 00EE after 2nnn (R100, R102) -/

/-- Settles O20: the call left its return address on top of the stack, and the return pops the top of the stack. -/
theorem callThenReturnRoundTrip : Obligations.CallThenReturnRoundTrip := by
  intro nnn s t r hcall hsp hstack
  obtain ⟨hroom, rfl⟩ := exec_call_next hcall
  rcases exec_ret_cases r with ⟨_, hret⟩ | ⟨hempty, -⟩
  · refine ⟨_, hret, ?_, ?_⟩ <;> simp [hsp, hstack]
  · simp [hsp] at hempty

/-! ## The skips (R103 to R106) -/

/-- What a skip does: `PC` moves on by one word where the condition holds, stays where it fails, and nothing else changes. -/
theorem skipIf_moves_pc_alone {c : Bool} {p q : Prop} (s : State) (hp : p → c = true) (hq : q → c = false) :
    skipIf c s = { s with pc := (skipIf c s).pc } ∧ (p → (skipIf c s).pc = s.pc + 2#16) ∧ (q → (skipIf c s).pc = s.pc) := by
  refine ⟨by cases c <;> rfl, fun h => ?_, fun h => ?_⟩
  · rw [hp h, skipIf_pc, if_pos rfl]
  · rw [hq h, skipIf_pc, if_neg Bool.false_ne_true]

theorem beq_of_toNat_eq {a b : Byte} (h : a.toNat = b.toNat) : (a == b) = true := beq_iff_eq.2 (BitVec.eq_of_toNat_eq h)

theorem beq_of_toNat_ne {a b : Byte} (h : a.toNat ≠ b.toNat) : (a == b) = false :=
  beq_eq_false_iff_ne.2 fun hab => h (congrArg _ hab)

theorem bne_of_toNat_ne {a b : Byte} (h : a.toNat ≠ b.toNat) : (a != b) = true := by rw [bne, beq_of_toNat_ne h, Bool.not_false]

theorem bne_of_toNat_eq {a b : Byte} (h : a.toNat = b.toNat) : (a != b) = false := by rw [bne, beq_of_toNat_eq h, Bool.not_true]

/-- Settles O21: each is a skip, on the two bytes being equal or different. -/
theorem skipsOnImmediate : Obligations.SkipsOnImmediate := fun x kk s =>
  ⟨⟨_, exec_seImm s x kk, skipIf_moves_pc_alone s beq_of_toNat_eq beq_of_toNat_ne⟩,
    ⟨_, exec_sneImm s x kk, skipIf_moves_pc_alone s bne_of_toNat_ne bne_of_toNat_eq⟩⟩

/-- Settles O22: the same two skips, with the second register in place of the immediate. -/
theorem skipsOnRegisters : Obligations.SkipsOnRegisters := fun x y s =>
  ⟨⟨_, exec_seReg s x y, skipIf_moves_pc_alone s beq_of_toNat_eq beq_of_toNat_ne⟩,
    ⟨_, exec_sneReg s x y, skipIf_moves_pc_alone s bne_of_toNat_ne bne_of_toNat_eq⟩⟩

end Sys2Proof.Machine
end

section
/-! PROOFS. The statements about the ALU (42_alu.md): plain register writes, then result and flag together of the five
instructions that write VF, and the random byte. -/

namespace Sys2Proof

/-! ## The words of class 6 (R74, R120) -/

theorem fieldKk_toNat_mod (w : Word) : (fieldKk w).toNat = w.toNat % 256 := by
  rw [fieldKk_toNat, nib3_toNat, nib4_toNat]
  omega

/-- Every word of class 6 loads its low byte into the register of its second nibble (R120). -/
theorem decodeWord_of_class6 {w : Word} (h : w &&& 0xF000#16 = 0x6000#16) :
    decodeWord w = .ok (.ldImm (fieldX w) (fieldKk w)) :=
  decodeWord_ok_iff.2 (encXkk_of_class (nib1_of_mask_class h))

end Sys2Proof

namespace Sys2Proof.Machine

/-! ## Instructions that write one register and no flag (R120 to R125, R131) -/

theorem getV_setV_other (s : State) {x k : Nibble} (b : Byte) (hk : k ≠ x) : getV (setV s x b) k = getV s k := by
  rw [getV_setV, if_neg hk]

/-- Settles O24: the word of a class 6 instruction gives its operands, and the instruction is one register write. -/
theorem loadImmediateWritesItsRegister : Obligations.LoadImmediateWritesItsRegister :=
  ⟨fun w h => ⟨fieldX w, fieldKk w, nib2_toNat w, fieldKk_toNat_mod w, decodeWord_of_class6 h⟩,
    fun x kk s => ⟨_, exec_ldImm s x kk, getV_setV_same s x kk, fun _ => getV_setV_other s _, rfl⟩⟩

/-- Settles O25: the one register written holds the sum of bytes, which is the sum modulo 256 (R132). -/
theorem addImmediateWrapsWithoutFlag : Obligations.AddImmediateWrapsWithoutFlag := by
  intro x kk s
  refine ⟨_, exec_addImm s x kk, ?_, fun _ => getV_setV_other s _, rfl⟩
  rw [getV_setV_same, BitVec.toNat_add]

/-- Settles O26: each writes the register it names, with the bits of the bitwise operation. -/
theorem copyAndLogicBitwise : Obligations.CopyAndLogicBitwise := by
  intro x y s
  refine ⟨⟨_, exec_ldReg s x y, getV_setV_same .., fun _ => getV_setV_other s _, rfl⟩,
    ⟨_, exec_orReg s x y, fun j => ?_, fun _ => getV_setV_other s _, rfl⟩,
    ⟨_, exec_andReg s x y, fun j => ?_, fun _ => getV_setV_other s _, rfl⟩,
    ⟨_, exec_xorReg s x y, fun j => ?_, fun _ => getV_setV_other s _, rfl⟩⟩
  · rw [getV_setV_same, BitVec.getLsbD_or]
  · rw [getV_setV_same, BitVec.getLsbD_and]
  · rw [getV_setV_same, BitVec.getLsbD_xor]

/-- A masked byte has no bit outside its mask (R131). -/
theorem and_mask_and_not_mask (r kk : Byte) : r &&& kk &&& ~~~kk = 0x00#8 := by
  rw [BitVec.and_assoc, BitVec.and_not_self]
  exact BitVec.and_zero

theorem getV_rndWith_same (r : Byte) (x : Nibble) (kk : Byte) (s : State) :
    getV (rndWith r x kk s) x = r &&& kk := getV_setV_same ..

theorem getV_rndWith_masked (r : Byte) (x : Nibble) (kk : Byte) (s : State) :
    getV (rndWith r x kk s) x &&& ~~~kk = 0x00#8 := by
  rw [getV_rndWith_same, and_mask_and_not_mask]

/-- Settles O31: the instruction is one register write of the masked byte, whichever byte it is, with one byte drawn. -/
theorem randomByteUnderMask : Obligations.RandomByteUnderMask :=
  ⟨fun x kk s => ⟨_, exec_rnd s x kk, getV_rndWith_same .., getV_rndWith_masked .., fun _ => getV_setV_other _ _, rfl,
      rfl⟩,
    fun r x kk s => ⟨getV_rndWith_same r x kk s, getV_rndWith_masked r x kk s⟩⟩

/-! ## Result first, flag last (R25, R133) -/

section

variable (s : State) (x : Nibble) (b : Byte) (c : Bool)

theorem getV_setResultFlag_vf : getV (setResultFlag s x b c) vf = flagByte c := by
  rw [getV_setResultFlag, if_pos rfl]

/-- The result survives the write of the flag unless VF is the destination. -/
theorem getV_setResultFlag_result (hx : x ≠ vf) : getV (setResultFlag s x b c) x = b := by
  rw [getV_setResultFlag, if_neg hx, if_pos rfl]

theorem getV_setResultFlag_other {k : Nibble} (hx : k ≠ x) (hf : k ≠ vf) :
    getV (setResultFlag s x b c) k = getV s k := by
  rw [getV_setResultFlag, if_neg hf, if_neg hx]

end

/-- An instruction that ends by writing a result and its flag leaves the flag `n` in VF, keeps a relation `R` of result and
flag where VF is not the destination, and changes nothing else. -/
theorem exists_next_setResultFlag {o : Host.Outcome State Fault Refusal} {s : State} {x : Nibble} {b : Byte} {c : Bool}
    {n : Nat} {R : Byte → Byte → Prop} (ho : o = .next (setResultFlag s x b c)) (hn : (flagByte c).toNat = n)
    (hR : R b (flagByte c)) :
    ∃ t, o = .next t ∧ (getV t vf).toNat = n ∧ (x ≠ vf → R (getV t x) (getV t vf)) ∧
      (∀ k, k ≠ x → k ≠ vf → getV t k = getV s k) ∧ t = { s with v := t.v } := by
  refine ⟨_, ho, ?_, fun hx => ?_, fun k => getV_setResultFlag_other s x b c, rfl⟩
  · rwa [getV_setResultFlag_vf]
  · rwa [getV_setResultFlag_vf, getV_setResultFlag_result s x b c hx]

/-! ## The flags as numbers, and what they say of the results (R126 to R130) -/

theorem carryOut_toNat (a b : Byte) :
    (flagByte (carryOut a b)).toNat = if 255 < a.toNat + b.toNat then 1 else 0 := by
  simp only [flagByte_toNat, carryOut, decide_eq_true_eq, gt_iff_lt]

theorem strictlyGreater_toNat (a b : Byte) :
    (flagByte (strictlyGreater a b)).toNat = if b.toNat < a.toNat then 1 else 0 := by
  simp only [flagByte_toNat, strictlyGreater, decide_eq_true_eq, gt_iff_lt]

theorem bitOutRight_toNat (a : Byte) : (flagByte (bitOutRight a)).toNat = a.toNat % 2 := by
  rw [flagByte_toNat, bitOutRight, BitVec.getLsbD, Nat.testBit_zero]
  simp only [decide_eq_true_eq]
  split <;> omega

theorem bitOutLeft_toNat (a : Byte) : (flagByte (bitOutLeft a)).toNat = a.toNat / 128 := by
  have := a.isLt
  rw [flagByte_toNat, bitOutLeft, BitVec.getLsbD, Nat.testBit_eq_decide_div_mod_eq]
  simp only [decide_eq_true_eq]
  split <;> omega

/-- The carry is what the wrapped sum lost (R126). -/
theorem add_with_carryOut (a b : Byte) :
    (a + b).toNat + 256 * (flagByte (carryOut a b)).toNat = a.toNat + b.toNat := by
  have := a.isLt
  have := b.isLt
  rw [carryOut_toNat, BitVec.toNat_add]
  split <;> omega

theorem sub_toNat (a b : Byte) : (a - b).toNat = (a.toNat + 256 - b.toNat) % 256 := by
  have := b.isLt
  rw [BitVec.toNat_sub]
  omega

/-- The bit shifted out on the right is the remainder of the halving (R129). -/
theorem shiftRight_with_bitOut (a : Byte) : 2 * (a >>> 1).toNat + (flagByte (bitOutRight a)).toNat = a.toNat := by
  rw [bitOutRight_toNat, BitVec.toNat_ushiftRight, Nat.shiftRight_eq_div_pow]
  omega

/-- The bit shifted out on the left is what the wrapped doubling lost (R130). -/
theorem shiftLeft_with_bitOut (a : Byte) : (a <<< 1).toNat + 256 * (flagByte (bitOutLeft a)).toNat = 2 * a.toNat := by
  have := a.isLt
  rw [bitOutLeft_toNat, BitVec.toNat_shiftLeft, Nat.shiftLeft_eq]
  omega

/-! ## The instructions that set the flag (R126 to R130) -/

/-- Settles O27: the flag byte is the carry, and the carry is what the wrapped sum lost. -/
theorem addWithCarryIsTheTrueSum : Obligations.AddWithCarryIsTheTrueSum := fun x y s =>
  exists_next_setResultFlag (R := fun b f => b.toNat + 256 * f.toNat = (getV s x).toNat + (getV s y).toNat)
    (exec_addReg s x y) (carryOut_toNat _ _) (add_with_carryOut _ _)

/-- Both subtractions at once: the minuend `a` and the subtrahend `b` are the old bytes (R127, R128). -/
theorem exists_next_subtract {o : Host.Outcome State Fault Refusal} {s : State} {x : Nibble} {a b : Byte}
    (ho : o = .next (setResultFlag s x (a - b) (strictlyGreater a b))) :
    ∃ t, o = .next t ∧ (getV t vf).toNat = (if b.toNat < a.toNat then 1 else 0) ∧
      (x ≠ vf → (getV t x).toNat = (a.toNat + 256 - b.toNat) % 256) ∧
      (∀ k, k ≠ x → k ≠ vf → getV t k = getV s k) ∧ t = { s with v := t.v } :=
  exists_next_setResultFlag (R := fun d _ => d.toNat = (a.toNat + 256 - b.toNat) % 256) ho (strictlyGreater_toNat a b)
    (sub_toNat a b)

/-- Settles O28: SUB and SUBN are the one subtraction with the operands in either order. -/
theorem subtractFlagIsStrictlyGreater : Obligations.SubtractFlagIsStrictlyGreater := fun x y s =>
  ⟨exists_next_subtract (exec_subReg s x y), exists_next_subtract (exec_subnReg s x y)⟩

/-- Settles O29: the flag byte is the bit shifted out, which is what the shifted byte lost. -/
theorem shiftsKeepEveryBit : Obligations.ShiftsKeepEveryBit := fun x y s =>
  ⟨exists_next_setResultFlag (R := fun b f => 2 * b.toNat + f.toNat = (getV s x).toNat)
      (exec_shr s x y) (bitOutRight_toNat _) (shiftRight_with_bitOut _),
    exists_next_setResultFlag (R := fun b f => b.toNat + 256 * f.toNat = 2 * (getV s x).toNat)
      (exec_shl s x y) (bitOutLeft_toNat _) (shiftLeft_with_bitOut _)⟩

end Sys2Proof.Machine
end

section
/-! PROOFS. The statements about `I` and memory (43_index_and_memory.md): the three instructions that write `I`, and the
registers stored at `I` and loaded back. -/

namespace Sys2Proof.Machine

/-! ## The instructions that write `I` (R140 to R142) -/

theorem zext8_toNat (b : Byte) : (zext8 b).toNat = b.toNat :=
  BitVec.toNat_setWidth_of_le (by decide)

/-- Five times a byte fits in a word, so the glyph's address is not wrapped (R142). -/
theorem fontAddress_toNat (b : Byte) : (fontAddress b).toNat = 5 * b.toNat := by
  have := b.isLt
  rw [fontAddress, BitVec.toNat_mul, zext8_toNat, BitVec.toNat_ofNat]
  omega

/-- Settles O34: each instruction is one write of `I`, with the value as a number; only the sum can wrap. -/
theorem indexRegisterInstructions : Obligations.IndexRegisterInstructions := by
  refine ⟨fun nnn s => ⟨_, exec_ldI s nnn, zext12_toNat nnn, rfl⟩, fun x s => ⟨_, exec_addI s x, ?_, rfl⟩,
    fun x s => ⟨_, exec_ldF s x, fontAddress_toNat _, rfl⟩⟩
  rw [setI_i, BitVec.toNat_add, zext8_toNat]

/-! ## Fx65 after Fx55 (R145, R146) -/

/-- Settles O38: the load reads the very addresses where the store put the registers. -/
theorem storeThenLoadRoundTrip : Obligations.StoreThenLoadRoundTrip := by
  intro x s t r hm hstore hmem hi
  obtain ⟨hfit, -⟩ := exec_storeRegs_next hstore
  obtain ⟨t', hstore', hstored, -⟩ := storeRegistersWritesTheRange x s hm hfit
  obtain rfl : t = t' := Host.Outcome.next.inj (hstore.symm.trans hstore')
  obtain ⟨u, hload, hloaded, -⟩ := loadRegistersReadsTheRange x r (hi ▸ hfit)
  refine ⟨u, hload, fun k hk => ?_⟩
  calc getV u k = memRead r.mem (indexBase r + k.toNat) := hloaded k hk
    _ = memRead t.mem (indexBase s + k.toNat) := by rw [hmem, indexBase, hi, indexBase]
    _ = getV s k := hstored k hk

end Sys2Proof.Machine
end

section
/-! PROOFS. The statements about the framebuffer (44_display.md): the clear, and what the mask of R152 says of one draw and of
two. -/

namespace Sys2Proof.Machine

/-- Settles O39: CLS is one write of the framebuffer. -/
theorem clearScreenClearsEveryPixel : Obligations.ClearScreenClearsEveryPixel := fun s =>
  ⟨_, exec_cls s, getPixel_clearPixels, rfl⟩

/-! ## Draws on a framebuffer (R151 to R153) -/

/-- Settles O40: up to 15 rows are few enough that no pixel is met twice. -/
theorem drawLoopsComputeTheMask : Obligations.DrawLoopsComputeTheMask := by
  intro fb x0 y0 rows h
  have hrows : rows.length ≤ 32 := by omega
  exact ⟨getPixel_drawSprite hrows, hit_drawSprite hrows⟩

section

variable {fb : Pixels} {x0 y0 : Byte} {rows : List Byte} (h : rows.length ≤ 32)

include h

/-- The second draw flips back what the first one flipped (R153). -/
theorem drawSprite_drawSprite : (drawSprite (drawSprite fb x0 y0 rows).1 x0 y0 rows).1 = fb := by
  refine pixels_ext fun row col => Bool.eq_iff_iff.2 ?_
  rw [getPixel_drawSprite h, getPixel_drawSprite h]
  by_cases hc : Covered x0 y0 rows row col <;> simp only [hc, iff_true, iff_false, not_not]

/-- A lit pixel is turned off exactly when the mask covers it (R152). -/
theorem getPixel_drawSprite_eq_false {row : Fin 32} {col : Fin 64} (hlit : getPixel fb row col = true) :
    getPixel (drawSprite fb x0 y0 rows).1 row col = false ↔ Covered x0 y0 rows row col := by
  rw [← Bool.not_eq_true, getPixel_drawSprite h, not_not, iff_true_left hlit]

/-- The draw is a hit exactly when it turns a lit pixel off (R151). -/
theorem hit_drawSprite_iff_turnedOff : (drawSprite fb x0 y0 rows).2 = true ↔
    ∃ row col, getPixel fb row col = true ∧ getPixel (drawSprite fb x0 y0 rows).1 row col = false :=
  (hit_drawSprite h).trans <| exists₂_congr fun _ _ =>
    and_congr_right fun hlit => (getPixel_drawSprite_eq_false h hlit).symm

end

/-! ## DRW (R151, R153) -/

/-- The rows of the sprite that DRW with height `n` draws: the bytes at `I` (R151). -/
def spriteRows (s : State) (n : Nibble) : List Byte := memReadList s.mem s.i.toNat n.toNat

theorem spriteRows_length_le (s : State) (n : Nibble) : (spriteRows s n).length ≤ 32 := by
  have := n.isLt
  rw [spriteRows, memReadList_length]
  omega

/-- A draw that completes is `drawSprite` on the rows at `I`, and then the write of the flag (R151). -/
theorem exec_drw_next_drawSprite {x y n : Nibble} {s t : State} (h : exec (.drw x y n) s = .next t) :
    t = setFlag { s with fb := (drawSprite s.fb (getV s x) (getV s y) (spriteRows s n)).1 }
      (drawSprite s.fb (getV s x) (getV s y) (spriteRows s n)).2 := by
  obtain ⟨-, ht⟩ := next_of_cases ((exec_drw_cases s x y n).imp exists_prop.2 and_assoc.2) h
  exact ht

theorem getV_setFlag_vf (s : State) (c : Bool) : getV (setFlag s c) 0xF#4 = flagByte c := getV_setV_same s vf _

theorem flagByte_eq_one_iff {c : Bool} : flagByte c = 0x01#8 ↔ c = true := by
  cases c <;> decide

/-- Settles O42: a draw keeps `I`, memory and every register but VF, so the second one draws the same rows at the same
place. -/
theorem drawTwiceRestoresTheScreen : Obligations.DrawTwiceRestoresTheScreen := by
  intro x y n s t u hx hy ht hu
  obtain rfl := exec_drw_next_drawSprite hu
  have kept (k : Nibble) (hk : k ≠ 0xF#4) : getV t k = getV s k := by
    obtain ⟨fb, hit, rfl⟩ := exec_drw_next ht
    exact (getV_setFlag ..).trans (if_neg hk)
  rw [setFlag_fb, kept x hx, kept y hy]
  obtain rfl := exec_drw_next_drawSprite ht
  exact drawSprite_drawSprite (spriteRows_length_le s n)

/-- Settles O43: VF holds the hit of the draw. -/
theorem collisionIsAPixelTurnedOff : Obligations.CollisionIsAPixelTurnedOff := by
  intro x y n s t h
  obtain rfl := exec_drw_next_drawSprite h
  rw [getV_setFlag_vf, flagByte_eq_one_iff]
  exact hit_drawSprite_iff_turnedOff (spriteRows_length_le s n)

end Sys2Proof.Machine
end

section
/-! PROOFS. The statements about the keypad and the timers (45_keypad_and_timers.md): the lowest pressed key, the skips on a
key, and the moves between a timer and a register. -/

namespace Sys2Proof.Machine

/-! ## Fx0A with a key pressed (R163) -/

section

variable {s : State} {k : Nibble} (hdown : keyDown s k = true) (hlow : ∀ j : Nibble, j.toNat < k.toNat → keyDown s j = false)

include hdown hlow

/-- A pressed key with no pressed key below it is the one found: the search stops neither before it nor after it. -/
theorem lowestKey_eq_some_of_lowest : lowestKey s = some k.toNat := by
  cases h : lowestKey s with
  | none => exact absurd hdown (by simp [lowestKey_eq_none_iff.1 h k])
  | some n =>
    obtain ⟨hn, hfound, hbelow⟩ := lowestKey_some h
    rcases lt_trichotomy n k.toNat with hlt | rfl | hgt
    · exact absurd hfound (by simpa [keyDown] using hlow (BitVec.ofFin ⟨n, hn⟩) hlt)
    · rfl
    · exact absurd hdown (by simp [keyDown, hbelow k.toNat hgt])

theorem exec_ldVxK_of_lowest (x : Nibble) :
    exec (.ldVxK x) s = .next (setV s x (BitVec.ofNat 8 k.toNat)) := by
  have hkey := lowestKey_eq_some_of_lowest hdown hlow
  rcases exec_ldVxK_cases s x with ⟨n, hn, he⟩ | ⟨hnone, -⟩
  · obtain rfl : k.toNat = n := Option.some.inj (hkey.symm.trans hn)
    exact he
  · cases hkey.symm.trans hnone

end

/-- A key number fits in a byte (R29). -/
theorem keyByte_toNat (k : Nibble) : (BitVec.ofNat 8 k.toNat).toNat = k.toNat := by
  have := k.isLt
  rw [BitVec.toNat_ofNat]
  omega

/-- Settles O45: the instruction is one register write of the lowest key, whose number fits in the byte. -/
theorem keyWaitReportsTheLowestKey : Obligations.KeyWaitReportsTheLowestKey := by
  intro x k s hdown hlow
  refine ⟨_, exec_ldVxK_of_lowest hdown hlow x, ?_, fun _ => getV_setV_other s _, rfl⟩
  rw [getV_setV_same, keyByte_toNat]

/-! ## Ex9E and ExA1 (R160, R161) -/

theorem keyIndex_toNat (b : Byte) : (keyIndex b).toNat = b.toNat % 16 := by
  rw [keyIndex, BitVec.extractLsb'_toNat, Nat.shiftRight_zero]

/-- Settles O44: each is a skip, on the key of the low nibble being pressed or released. -/
theorem keySkipsTestTheLowNibble : Obligations.KeySkipsTestTheLowNibble := by
  intro x k s hk
  obtain rfl : k = keyIndex (getV s x) := BitVec.eq_of_toNat_eq (hk.trans (keyIndex_toNat _).symm)
  exact ⟨⟨_, exec_skp s x, skipIf_moves_pc_alone s id id⟩,
    ⟨_, exec_sknp s x, skipIf_moves_pc_alone s (congrArg not) (congrArg not)⟩⟩

/-! ## Fx07, Fx15 and Fx18 (R162, R164, R165) -/

/-- Settles O47: Fx07 is one register write of `DT`, and the other two are one write of their timer. -/
theorem timerInstructionsMoveOneValue : Obligations.TimerInstructionsMoveOneValue := fun x s =>
  ⟨⟨_, exec_ldVxDt s x, getV_setV_same .., fun _ => getV_setV_other s _, rfl⟩,
    ⟨_, exec_ldDtVx s x, rfl, rfl⟩, ⟨_, exec_ldStVx s x, rfl, rfl⟩⟩

end Sys2Proof.Machine
end

section
/-! PROOFS. The statements about the exceptions and the host's acts between steps (60_exceptions.md): the two stack errors,
the timer tick and the key write. -/

namespace Sys2Proof.Machine

/-! ## The two stack errors (R172, R173) -/

theorem exec_stackOverflow_iff (i : Instr) (s : State) :
    exec i s = .fault .stackOverflow ↔ (∃ nnn, i = .call nnn) ∧ s.sp.val = 16 := by
  constructor
  · intro h
    rcases exec_outcome s i with ⟨t, ho⟩ | ⟨hi, hsp, -⟩ | ⟨-, -, ho⟩ | ⟨-, -, ho⟩
    · cases h.symm.trans ho
    · exact ⟨hi, hsp⟩
    · cases h.symm.trans ho
    · cases h.symm.trans ho
  · rintro ⟨⟨nnn, rfl⟩, hsp⟩
    rcases exec_call_cases s nnn with ⟨hroom, -⟩ | ⟨-, ho⟩
    · omega
    · exact ho

theorem exec_stackUnderflow_iff (i : Instr) (s : State) :
    exec i s = .fault .stackUnderflow ↔ i = .ret ∧ s.sp.val = 0 := by
  constructor
  · intro h
    rcases exec_outcome s i with ⟨t, ho⟩ | ⟨-, -, ho⟩ | ⟨hi, hsp, -⟩ | ⟨-, -, ho⟩
    · cases h.symm.trans ho
    · cases h.symm.trans ho
    · exact ⟨hi, hsp⟩
    · cases h.symm.trans ho
  · rintro ⟨rfl, hsp⟩
    rcases exec_ret_cases s with ⟨hentry, -⟩ | ⟨-, ho⟩
    · exact absurd hsp hentry
    · exact ho

/-- An error that neither the fetch nor the decoder raises is raised by a step exactly where the fetched instruction raises
it (R98). -/
theorem step_fault_iff_exec_fault {e : Fault} (hfetch : ∀ a, e ≠ .memoryOutOfBounds a) (hdec : ∀ w, e ≠ .unknownOpcode w)
    (s : State) : step s = .fault e ↔ ∃ i, Fetches s i ∧ exec i (advance s) = .fault e := by
  constructor
  · intro h
    rcases step_cases s with ⟨-, hs⟩ | ⟨-, -, hs⟩ | ⟨i, hi, hs⟩
    · exact absurd (Host.Outcome.fault.inj (h.symm.trans hs)) (hfetch _)
    · exact absurd (Host.Outcome.fault.inj (h.symm.trans hs)) (hdec _)
    · exact ⟨i, hi, hs.symm.trans h⟩
  · rintro ⟨i, ⟨hpc, hd⟩, he⟩
    exact (step_of_decode hpc hd).trans he

/-- Settles O13: the step's part is the instruction's, read at the advanced state, whose `SP` is the old one. -/
theorem stackOverflowExactlyOnFullCall : Obligations.StackOverflowExactlyOnFullCall := by
  refine ⟨exec_stackOverflow_iff, fun s => ?_⟩
  simp only [step_fault_iff_exec_fault (e := .stackOverflow) nofun nofun, exec_stackOverflow_iff, advance_sp]
  constructor
  · rintro ⟨_, hf, ⟨nnn, rfl⟩, hsp⟩
    exact ⟨⟨nnn, hf⟩, hsp⟩
  · rintro ⟨⟨nnn, hf⟩, hsp⟩
    exact ⟨_, hf, ⟨nnn, rfl⟩, hsp⟩

/-- Settles O14: as for the overflow, with the one instruction that pops. -/
theorem stackUnderflowExactlyOnEmptyReturn : Obligations.StackUnderflowExactlyOnEmptyReturn := by
  refine ⟨exec_stackUnderflow_iff, fun s => ?_⟩
  simp only [step_fault_iff_exec_fault (e := .stackUnderflow) nofun nofun, exec_stackUnderflow_iff, advance_sp]
  constructor
  · rintro ⟨_, hf, rfl, hsp⟩
    exact ⟨hf, hsp⟩
  · rintro ⟨hf, hsp⟩
    exact ⟨_, hf, rfl, hsp⟩

/-! ## `TickTimers` and `SetKey` (R183, R184) -/

/-- A tick is the subtraction of natural numbers, which stops at 0 (R183). -/
theorem tick_toNat (b : Byte) : (tick b).toNat = b.toNat - 1 := by
  unfold tick
  split
  next h => rw [h]; rfl
  next h =>
    have hpos : b.toNat ≠ 0 := fun h0 => h (BitVec.eq_of_toNat_eq h0)
    have := b.isLt
    rw [sub_toNat, BitVec.toNat_ofNat]
    omega

/-- Settles O50: the two fields written are each one tick. -/
theorem tickTimersCountsBothDown : Obligations.TickTimersCountsBothDown := fun s =>
  ⟨_, rfl, tick_toNat s.dt, tick_toNat s.st, rfl⟩

theorem setKey_setKey (s : State) (k : Nibble) (p q : Bool) : setKey (setKey s k p) k q = setKey s k q := by
  simp only [setKey, Vector.set_set]

/-- Settles O51: the keypad read after one write, and the second write over the first. -/
theorem setKeyWritesOneKey : Obligations.SetKeyWritesOneKey :=
  ⟨fun s k p => ⟨_, rfl, (keyDown_setKey s k k p).trans (if_pos rfl),
    fun j hj => (keyDown_setKey s k j p).trans (if_neg hj), rfl⟩, setKey_setKey⟩

end Sys2Proof.Machine
end

section
/-! PROOFS. The statements about the refused `Reset` and the block before it (70_reset_and_hazards.md): what `Reset` does with
an image that does not fit, and which transactions exist where no machine does. -/

namespace Sys2Proof.Machine

theorem imageWf_eq_false_of_length {img : List Byte} (h : 3584 < img.length) : imageWf img = false :=
  decide_eq_false (Nat.not_le_of_gt h)

/-- `Reset` has a transition from every block, with or without a machine (R200 to R202). -/
theorem perform_reset (b : Block) (img : List Byte) : perform b (.reset img) = some (resetBlock b img) := by
  cases b <;> rfl

theorem resetBlock_of_not_imageWf {img : List Byte} (h : imageWf img = false) (b : Block) :
    resetBlock b img = (b, .error .programTooLarge) := if_neg (Bool.eq_false_iff.1 h)

/-- The transactions that exist before a machine does (R202). -/
theorem perform_none_iff {t : Transaction} : (∃ out, perform none t = some out) ↔ ∃ img, t = .reset img := by
  constructor
  · rintro ⟨out, h⟩
    cases t with
    | reset img => exact ⟨img, rfl⟩
    | step | tickTimers | setKey | readFramebuffer | readSoundTimer => cases h
  · rintro ⟨img, rfl⟩
    exact ⟨_, perform_reset none img⟩

/-- Settles O54: the refused image is the other branch of `resetBlock`; without a machine only `Reset` has a transition. -/
theorem refusedLoadAndUncreatedBlock : Obligations.RefusedLoadAndUncreatedBlock := by
  refine ⟨fun b img h => ?_, fun _ => perform_none_iff⟩
  rw [perform_reset, resetBlock_of_not_imageWf (imageWf_eq_false_of_length h)]

end Sys2Proof.Machine
end
